-- ==== Sys2Proof/Word.lean ====
section
/-! DEFINITION. The byte, the one data width of the machine, and the offsets of its 255-byte arrays. -/

namespace Sys2Proof

/-- The data word: registers, memory cells, `pc` and `ptr` are 8 bits, unsigned, with bit 0 the least significant
(R7, R9). Its `+` and `-` are the sums and differences modulo 256 of R10. -/
abbrev Byte := BitVec 8

/-- A valid offset of a 255-byte array, 0x00..0xFE (R60). Offset 0xFF names no byte in any space (R61), so it is no
`Offset`. -/
abbrev Offset := Fin 255

end Sys2Proof
end

