-- ==== Sys2Proof/Syntax.lean ====
section
/-! DEFINITION. The instruction slot of R90 and the instructions: one constructor per row of the opcode table. -/

namespace Sys2Proof

/-- An instruction slot: 4 consecutive program-memory bytes, in ascending offsets (R67, R90). -/
structure Slot where
  opcode : Byte
  parameter : Byte
  operand : Byte
  unused : Byte
deriving DecidableEq, Repr

/-- The instructions (R93). A constructor holds the fields its instruction uses and no others, since an ignored field
changes nothing (R95). The rows of the table that cover several unrecognized opcodes hold the opcode byte. -/
inductive Instr where
  /-- 0x00, no operation (R140). -/
  | nop
  /-- 0x01, call `target` (R153). -/
  | jump (target : Byte)
  /-- 0x02, return (R154). -/
  | ret
  /-- 0x03, `C <- A + B` (R171). -/
  | add
  /-- 0x04, `ptr <- value` (R180). -/
  | setRamPointer (value : Byte)
  /-- 0x05, `RAM[ptr] <- value` (R181). -/
  | ramSet (value : Byte)
  /-- 0x06, `x[registerId] <- RAM[ptr]`; the id is the whole parameter byte, valid or not (R96, R182). -/
  | ld (registerId : Byte)
  /-- 0x07, `bank <- (bank + 1) mod 4` (R200). -/
  | nextRomBank
  /-- 0x08, the END sentinel (R141). -/
  | endMarker
  /-- The table's row 0x09..0x09 of R142. -/
  | unrecognized09
  /-- The table's row 0x0A..0x0B of R142. -/
  | unrecognized0A (opcode : Byte)
  /-- The table's row 0x0C..0x0F of R142. -/
  | unrecognized0C (opcode : Byte)
  /-- The table's row 0x10..0x1F of R142. -/
  | unrecognized10 (opcode : Byte)
  /-- The table's row 0x20..0x3F of R142. -/
  | unrecognized20 (opcode : Byte)
  /-- The table's row 0x40..0x7F of R142. -/
  | unrecognized40 (opcode : Byte)
  /-- The table's row 0x80..0xFF of R142. -/
  | unrecognized80 (opcode : Byte)
deriving DecidableEq, Repr

end Sys2Proof
end

