-- ==== Sys2Proof/WellFormed.lean ====
section
/-! DEFINITION. Which terms of `Instr` some slot stands for: an unrecognized opcode lies in its row of the opcode table.
Every other field admits every byte (R94, R96). -/

namespace Sys2Proof

/-- The opcode byte lies in the row `lo..hi`. -/
def opcodeInRow (lo hi opcode : Byte) : Bool := lo ≤ opcode && opcode ≤ hi

/-- The check, row by row of the opcode table. An LD with an invalid id is well formed: it is an instruction, which the
machine refuses (R96, R182). -/
def Instr.wellFormed : Instr → Bool
  | .nop => true
  | .jump _ => true
  | .ret => true
  | .add => true
  | .setRamPointer _ => true
  | .ramSet _ => true
  | .ld _ => true
  | .nextRomBank => true
  | .endMarker => true
  | .unrecognized09 => true
  | .unrecognized0A opcode => opcodeInRow 0x0A 0x0B opcode
  | .unrecognized0C opcode => opcodeInRow 0x0C 0x0F opcode
  | .unrecognized10 opcode => opcodeInRow 0x10 0x1F opcode
  | .unrecognized20 opcode => opcodeInRow 0x20 0x3F opcode
  | .unrecognized40 opcode => opcodeInRow 0x40 0x7F opcode
  | .unrecognized80 opcode => opcodeInRow 0x80 0xFF opcode

/-- The instruction is one that some slot encodes. -/
abbrev Instr.WellFormed (i : Instr) : Prop := i.wellFormed = true

end Sys2Proof
end

