-- ==== Sys2Proof/Decode.lean ====
section
/-! DEFINITION. From the bytes of a slot to an instruction, and back. Every three bytes are an instruction (R97); only
a list of fewer than three bytes is rejected, by name. -/

namespace Sys2Proof

/-- Decode reads exactly the three meaningful bytes and compares the opcode as a whole byte (R91, R93). Opcodes
0x09..0xFF fall into the opcode table's seven unrecognized rows (R142). -/
def decode (opcode parameter operand : Byte) : Instr :=
  if opcode = 0x00 then .nop
  else if opcode = 0x01 then .jump operand
  else if opcode = 0x02 then .ret
  else if opcode = 0x03 then .add
  else if opcode = 0x04 then .setRamPointer operand
  else if opcode = 0x05 then .ramSet operand
  else if opcode = 0x06 then .ld parameter
  else if opcode = 0x07 then .nextRomBank
  else if opcode = 0x08 then .endMarker
  else if opcode = 0x09 then .unrecognized09
  else if opcode ≤ 0x0B then .unrecognized0A opcode
  else if opcode ≤ 0x0F then .unrecognized0C opcode
  else if opcode ≤ 0x1F then .unrecognized10 opcode
  else if opcode ≤ 0x3F then .unrecognized20 opcode
  else if opcode ≤ 0x7F then .unrecognized40 opcode
  else .unrecognized80 opcode

/-- Why a list of bytes is no slot. -/
inductive DecodeError where
  /-- Fewer than the three meaningful bytes were given. DESIGN CHOICE (log entry 10), safe: `step` never meets it. -/
  | truncatedSlot
deriving DecidableEq, Repr

/-- Decode a list of bytes, the first at the lowest offset (R67). The fourth byte is never read (R91). -/
def decodeBytes : List Byte → Except DecodeError Instr
  | opcode :: parameter :: operand :: _ => .ok (decode opcode parameter operand)
  | _ => .error .truncatedSlot

/-- The opcode byte of an instruction (R93). -/
def Instr.opcode : Instr → Byte
  | .nop => 0x00
  | .jump _ => 0x01
  | .ret => 0x02
  | .add => 0x03
  | .setRamPointer _ => 0x04
  | .ramSet _ => 0x05
  | .ld _ => 0x06
  | .nextRomBank => 0x07
  | .endMarker => 0x08
  | .unrecognized09 => 0x09
  | .unrecognized0A opcode => opcode
  | .unrecognized0C opcode => opcode
  | .unrecognized10 opcode => opcode
  | .unrecognized20 opcode => opcode
  | .unrecognized40 opcode => opcode
  | .unrecognized80 opcode => opcode

/-- The parameter byte: the register id of LD; ignored, and written as 0x00, for every other instruction (R90, R99). -/
def Instr.parameter : Instr → Byte
  | .ld registerId => registerId
  | _ => 0x00

/-- The operand byte: JUMP's target, SET_RAM_POINTER's pointer, RAM_SET's value; ignored, and written as 0x00, for every
other instruction (R90, R99). -/
def Instr.operand : Instr → Byte
  | .jump target => target
  | .setRamPointer value => value
  | .ramSet value => value
  | _ => 0x00

/-- The slot bytes of an instruction, the fields it does not use written as 0x00 (R99). -/
def encode (i : Instr) : Slot := ⟨i.opcode, i.parameter, i.operand, 0x00⟩

/-- The slot's bytes in ascending offsets (R67). -/
def Slot.bytes (s : Slot) : List Byte := [s.opcode, s.parameter, s.operand, s.unused]

/-- The opcode-table word `W = b0 ++ b1 ++ b2 ++ b3`, the opcode in bits 31..24 (R98). -/
def Slot.toWord (s : Slot) : BitVec 32 := s.opcode ++ s.parameter ++ s.operand ++ s.unused

/-- The slot that an opcode-table word stands for (R98). -/
def Slot.ofWord (w : BitVec 32) : Slot :=
  ⟨w.extractLsb' 24 8, w.extractLsb' 16 8, w.extractLsb' 8 8, w.extractLsb' 0 8⟩

/-- A row of the opcode table: a slot matches it when `(W & mask) = pattern` (R98). -/
structure TableRow where
  mask : BitVec 32
  pattern : BitVec 32
deriving DecidableEq, Repr

/-- The row matches the word (R98). -/
def TableRow.matches (r : TableRow) (w : BitVec 32) : Bool := w &&& r.mask == r.pattern

/-- The instruction's row of opcode_table.json, written out from it. -/
def Instr.row : Instr → TableRow
  | .nop => ⟨0xFF000000, 0x00000000⟩
  | .jump _ => ⟨0xFF000000, 0x01000000⟩
  | .ret => ⟨0xFF000000, 0x02000000⟩
  | .add => ⟨0xFF000000, 0x03000000⟩
  | .setRamPointer _ => ⟨0xFF000000, 0x04000000⟩
  | .ramSet _ => ⟨0xFF000000, 0x05000000⟩
  | .ld _ => ⟨0xFF000000, 0x06000000⟩
  | .nextRomBank => ⟨0xFF000000, 0x07000000⟩
  | .endMarker => ⟨0xFF000000, 0x08000000⟩
  | .unrecognized09 => ⟨0xFF000000, 0x09000000⟩
  | .unrecognized0A _ => ⟨0xFE000000, 0x0A000000⟩
  | .unrecognized0C _ => ⟨0xFC000000, 0x0C000000⟩
  | .unrecognized10 _ => ⟨0xF0000000, 0x10000000⟩
  | .unrecognized20 _ => ⟨0xE0000000, 0x20000000⟩
  | .unrecognized40 _ => ⟨0xC0000000, 0x40000000⟩
  | .unrecognized80 _ => ⟨0x80000000, 0x80000000⟩

/-- The slot of a table word of which `nbits` bits are given: the bits above them are 0. -/
def slotOfTableWord (nbits w : Nat) : Slot := Slot.ofWord (BitVec.ofNat 32 (w % 2 ^ nbits))

/-- The instruction the decoder reads from an opcode-table word (R98), its bytes laid out in ascending offsets. -/
def decodeTableWord (nbits w : Nat) : Option Instr := (decodeBytes (slotOfTableWord nbits w).bytes).toOption

end Sys2Proof
end

