-- ==== Sys2Proof/Config.lean ====
section
/-! DEFINITION. The parameters of R7 that the operations use, and the two points the spec leaves open, as constants
without a body. -/

namespace Sys2Proof.Config

/-- The counter advance per step, one instruction slot (R7, R92). -/
@[simp] def slotWidth : Byte := 4

/-- The highest `pc` whose three slot bytes all exist (R121). -/
@[simp] def lastFetch : Nat := 0xFC

/-- The RAM offset of call-stack slot 0 (R7, R37). -/
@[simp] def stackBase : Nat := 0xF0

/-- The depth at which a push is refused (R7, R32). -/
@[simp] def depthLimit : Nat := 14

/-- DESIGN CHOICE (log entry 1). `RESET_PAUSED`, the value of the paused flag after reset, is the one parameter the spec
leaves open (R28, R272, D10): a claim holds for both values. -/
opaque resetPaused : Bool

/-- DESIGN CHOICE (log entry 6). When a host names both a bank above 3 and the offset 0xFF, R214 gives both rejections
and no order: whether the reported kind is INVALID_BANK (else OUT_OF_RANGE) is left free. -/
opaque romErrorIsBank : (write : Bool) → (bank offset : Byte) → Bool

end Sys2Proof.Config
end

