-- ==== Sys2Proof/Machine/Memory.lean ====
section
/-! DEFINITION. A 255-byte array as a canonical list of (offset, byte) pairs: offsets strictly rising, and no pair whose
byte is what an unlisted offset reads as. -/

namespace Sys2Proof.Machine

/-- A 255-byte array. -/
abbrev Memory := List Host.Cell

/-- What an offset that no pair lists reads as: 0x00, the reset contents of RAM (R35), of VRAM (R36) and of a program
bank when no program is supplied (R34). -/
def Memory.unlisted : Byte := 0x00

/-- The byte at an offset. -/
def Memory.read : Memory → Nat → Byte
  | [], _ => Memory.unlisted
  | (k, v) :: m, a => if k = a then v else Memory.read m a

/-- No pair for the offset. -/
def Memory.erase : Memory → Nat → Memory
  | [], _ => []
  | c :: m, a => if c.1 = a then Memory.erase m a else c :: Memory.erase m a

/-- The pair, put before the first pair with a greater offset. -/
def Memory.insert (a : Nat) (v : Byte) : Memory → Memory
  | [] => [(a, v)]
  | c :: m => if a < c.1 then (a, v) :: c :: m else c :: Memory.insert a v m

/-- Write one byte. Writing what an unlisted offset reads as removes the pair. -/
def Memory.write (m : Memory) (a : Nat) (v : Byte) : Memory :=
  if v = Memory.unlisted then m.erase a else Memory.insert a v (m.erase a)

/-- The array that holds the bytes of a list from the offset `a` on, and nothing else. -/
def Memory.ofBytes (a : Nat) : List Byte → Memory
  | [] => []
  | v :: bs => if v = Memory.unlisted then Memory.ofBytes (a + 1) bs else (a, v) :: Memory.ofBytes (a + 1) bs

/-- The canonical form: offsets strictly rising and all below 255 (R60, R61), and no listed byte an unlisted one. -/
abbrev Memory.wf (m : Memory) : Prop :=
  m.Pairwise (fun c d => c.1 < d.1) ∧ ∀ c ∈ m, c.1 < 255 ∧ c.2 ≠ Memory.unlisted

end Sys2Proof.Machine
end

