-- ==== Sys2Proof/Machine/State.lean ====
section
/-! DEFINITION. The state: every item of R20, as plain data, and its value after reset (R270). -/

namespace Sys2Proof.Machine

/-- The register names; their ids are A = 0, B = 1, C = 2, D = 3 (R21). -/
inductive Reg where
  | A | B | C | D
deriving DecidableEq, Repr

/-- The register file: four 8-bit registers (R21). -/
structure RegisterFile where
  a : Byte
  b : Byte
  c : Byte
  d : Byte
deriving DecidableEq, Repr

/-- The decode latch (R38). -/
structure Latch where
  opcode : Byte
  parameter : Byte
  operand : Byte
deriving DecidableEq, Repr

/-- The no-op value of the decode latch (R38, D15). -/
def Latch.noOp : Latch := ⟨0x00, 0x00, 0x00⟩

/-- The ALU latches `alu.a`, `alu.b` and `alu.r` (R39). -/
structure Alu where
  a : Byte
  b : Byte
  r : Byte
deriving DecidableEq, Repr

/-- The kinds of diagnostic (R241). -/
inductive DiagKind where
  /-- A push at depth 14: JUMP (R153). -/
  | stackOverflow
  /-- A pop at depth 0: RETURN (R154). -/
  | stackEmpty
  /-- An LD whose parameter is in 4..255 (R182). -/
  | invalidRegister
  /-- An access to offset 0xFF: a fetch with `pc > 0xFC` (R121), RAM_SET or LD with `ptr = 0xFF` (R181, R182). -/
  | outOfRange
deriving DecidableEq, Repr

/-- The two severities of the source (R242). -/
inductive Severity where
  | recoverable
  | fatal
deriving DecidableEq, Repr

/-- One diagnostic event: its kind, and `pc` and `bank` at the start of the step that raised it (R40, R241). -/
structure Event where
  kind : DiagKind
  pc : Byte
  bank : Fin 4
deriving DecidableEq, Repr

/-- The CORE's state: exactly the items of R20. -/
structure State where
  /-- A, B, C, D (R21 to R24). -/
  regs : RegisterFile
  /-- The program counter, an offset into the active bank (R25, R26). -/
  pc : Byte
  /-- Paused (true) or Running (false) (R28). -/
  paused : Bool
  /-- The active program bank, 0..3 (R29). -/
  bank : Fin 4
  /-- The data pointer, any byte (R30). -/
  ptr : Byte
  /-- The call-stack depth, 0..14 (R31, R32). -/
  depth : Fin 15
  /-- Program memory: four banks (R34). -/
  rom : Vector Memory 4
  /-- Data memory, the call stack's slots among it (R35, R37). -/
  ram : Memory
  /-- The auxiliary byte-plane (R36). -/
  vram : Memory
  /-- The decode latch (R38). -/
  latch : Latch
  /-- The ALU latches (R39). -/
  alu : Alu
  /-- The diagnostic output, oldest event first (R40). -/
  diagnostics : List Event
deriving DecidableEq, Repr

/-- Why the machine stops with a fault: never. No condition halts the engine or traps (R126, R240), so this type has no
constructor; nothing raises a fault, which is exact (neither safe nor unsafe, log entry 8). -/
inductive Fault where
deriving DecidableEq, Repr

/-- Why an instruction is refused by the model. (An instruction the CORE refuses is a next state, R129.) -/
inductive Refusal where
  /-- An instruction without a meaning, named by its mnemonic. Raised by `exec`'s refused arms alone; there is none, so
  nothing raises it. Safe. -/
  | notModelled (mnemonic : String)
deriving DecidableEq, Repr

/-- The state after `reset` with no images (R270): the ROM, RAM and VRAM bytes, the registers, `pc`, `bank`, `ptr`, `depth`,
the latches all 0, no diagnostic. `paused` is the open parameter `RESET_PAUSED` (R28, log entry 1). -/
def State.reset : State where
  regs := ⟨0, 0, 0, 0⟩
  pc := 0x00
  paused := Config.resetPaused
  bank := 0
  ptr := 0x00
  depth := 0
  rom := #v[[], [], [], []]
  ram := []
  vram := []
  latch := Latch.noOp
  alu := ⟨0, 0, 0⟩
  diagnostics := []

end Sys2Proof.Machine
end

