-- ==== Sys2Proof/Machine/Operands.lean ====
section
/-! DEFINITION. The operand forms: a register id taken from a whole byte, and an offset taken from a byte. The JUMP
target, the SET_RAM_POINTER value and the RAM_SET value are used raw (R94). -/

namespace Sys2Proof.Machine

/-- The register ids (R21). -/
def Reg.id : Reg → Nat
  | .A => 0
  | .B => 1
  | .C => 2
  | .D => 3

/-- The register a whole byte names: 0..3 are A..D, 4..255 are invalid and are not masked (R22, R96). -/
def registerOfId (id : Byte) : Option Reg :=
  if id = 0 then some .A
  else if id = 1 then some .B
  else if id = 2 then some .C
  else if id = 3 then some .D
  else none

/-- The array offset a byte names: every byte but 0xFF, which names none and does not wrap (R61). -/
def offsetOf (a : Byte) : Option Offset :=
  if h : a.toNat < 255 then some ⟨a.toNat, h⟩ else none

/-- The program bank a host's byte names: 0..3 (R213, R214, R219). -/
def bankOf (b : Byte) : Option (Fin 4) :=
  if h : b.toNat < 4 then some ⟨b.toNat, h⟩ else none

/-- The effective address of RAM_SET and LD: `ptr`, with no offset and no update (R64). -/
def dataAddress (s : State) : Option Offset := offsetOf s.ptr

end Sys2Proof.Machine
end

