-- ==== Sys2Proof/Machine/Ops.lean ====
section
/-! DEFINITION. The named operations on registers, memories, the call stack and the diagnostic output, and the phases of
the cycle that instructions share. -/

namespace Sys2Proof.Machine

/-! ## Registers -/

/-- Read a register (R21, R23). -/
def RegisterFile.get (f : RegisterFile) : Reg → Byte
  | .A => f.a
  | .B => f.b
  | .C => f.c
  | .D => f.d

/-- Write a register; no register is hardwired (R21). -/
def RegisterFile.set (f : RegisterFile) (r : Reg) (v : Byte) : RegisterFile :=
  match r with
  | .A => { f with a := v }
  | .B => { f with b := v }
  | .C => { f with c := v }
  | .D => { f with d := v }

/-- `x[r]` (R11). -/
def State.reg (s : State) (r : Reg) : Byte := s.regs.get r

/-- `x[r] <- v` (R11). -/
def State.setReg (s : State) (r : Reg) (v : Byte) : State := { s with regs := s.regs.set r v }

/-! ## Memories: one byte per access (R69) -/

/-- `MemRead(o, 1)` (R11). -/
def State.ramRead (s : State) (o : Offset) : Byte := s.ram.read o.val

/-- `MemWrite(o, 1, v)` (R11). -/
def State.ramWrite (s : State) (o : Offset) (v : Byte) : State := { s with ram := s.ram.write o.val v }

/-- `RomRead(b, o)` (R11). -/
def State.romRead (s : State) (b : Fin 4) (o : Offset) : Byte := s.rom[b].read o.val

/-- `RomWrite(b, o, v)` (R11): one byte of one bank; the banks are disjoint (R63). -/
def State.romWrite (s : State) (b : Fin 4) (o : Offset) (v : Byte) : State :=
  { s with rom := s.rom.set b.val (s.rom[b].write o.val v) b.isLt }

/-- `VramRead(o)` (R11). -/
def State.vramRead (s : State) (o : Offset) : Byte := s.vram.read o.val

/-- `VramWrite(o, v)` (R11). -/
def State.vramWrite (s : State) (o : Offset) (v : Byte) : State := { s with vram := s.vram.write o.val v }

/-! ## The diagnostic output -/

/-- The numeric code of a kind (R241). -/
def DiagKind.code : DiagKind → Nat
  | .stackOverflow => 1
  | .stackEmpty => 2
  | .invalidRegister => 3
  | .outOfRange => 4

/-- Every kind is recoverable; the CORE raises no fatal diagnostic (R241, R242). -/
def DiagKind.severity (_k : DiagKind) : Severity := .recoverable

/-- `raise Diag(k)`: append one event, transfer no control (R11, R241). `pc` and `bank` still hold their values at the start
of the step wherever a rule raises. -/
def State.raiseDiag (s : State) (k : DiagKind) : State :=
  { s with diagnostics := s.diagnostics ++ [⟨k, s.pc, s.bank⟩] }

/-! ## The call stack -/

/-- The RAM offset of call-stack slot `k` (R37, R150). -/
def stackSlot (k : Fin 15) : Offset := ⟨Config.stackBase + k.val, by simp; omega⟩

/-- Push (R151): refused at depth 14, with nothing written; else the address goes to the slot of the old depth, and the
depth rises by one. -/
def push (addr : Byte) (s : State) : Option State :=
  if h : s.depth.val = Config.depthLimit then none
  else some { s.ramWrite (stackSlot s.depth) addr with
    depth := ⟨s.depth.val + 1, by simp at h; omega⟩ }

/-- The slot a pop reads: that of the depth after the decrement (R152). -/
def topSlot (s : State) : Fin 15 := ⟨s.depth.val - 1, by omega⟩

/-- Pop (R152): refused at depth 0, with nothing written; else the depth falls by one, and the slot is read and then
zeroed. -/
def pop (s : State) : Option (Byte × State) :=
  if s.depth.val = 0 then none
  else some (s.ramRead (stackSlot (topSlot s)),
    { s.ramWrite (stackSlot (topSlot s)) 0x00 with depth := topSlot s })

/-! ## The phases of the cycle -/

/-- Phase 1 (R121): the three bytes at `pc`, `pc + 1`, `pc + 2` of the active bank, without wrapping; none when one of them
would be at 0xFF or beyond. -/
def fetch (s : State) : Option Latch :=
  if h : s.pc.toNat ≤ Config.lastFetch then
    some ⟨s.romRead s.bank ⟨s.pc.toNat, by simp at h; omega⟩,
      s.romRead s.bank ⟨s.pc.toNat + 1, by simp at h; omega⟩,
      s.romRead s.bank ⟨s.pc.toNat + 2, by simp at h; omega⟩⟩
  else none

/-- The fetched bytes go into the decode latch (R121). -/
def State.loadLatch (s : State) (l : Latch) : State := { s with latch := l }

/-- Phases 3 and 4 (R123, R124): the latch is cleared to its no-op value, and `pc <- (pc_pre + 4) mod 256`. `pcPre` is the
execute-phase counter `pc_pre` of R122. -/
def endCycle (pcPre : Byte) (s : State) : Host.Outcome State Fault Refusal :=
  .next { s with latch := Latch.noOp, pc := pcPre + Config.slotWidth }

/-- The one way an instruction meets an abnormal condition (R129, R240, R243): one diagnostic event, no other effect, and
the phases that end every cycle, with `pc_pre = pc`. There is no trap entry, and nothing to return from (R247, R248). -/
def refuse (k : DiagKind) (s : State) : Host.Outcome State Fault Refusal :=
  endCycle s.pc (s.raiseDiag k)

/-- An out-of-range fetch (R121): one diagnostic, nothing executed, the latch as it was, and the post-advance. -/
def outOfRangeFetch (s : State) : Host.Outcome State Fault Refusal :=
  .next { s.raiseDiag .outOfRange with pc := s.pc + Config.slotWidth }

/-- Phase 2 without a state change (R140 to R142), and the end of the cycle. -/
def noOperation (s : State) : Host.Outcome State Fault Refusal := endCycle s.pc s

end Sys2Proof.Machine
end

