-- ==== Sys2Proof/Machine/Flags.lean ====
section
/-! DEFINITION. The Arithmetic Unit. The CORE has no status flags, condition codes or predicates (R27), and the ALU yields
its sum alone: no carry, no overflow, no zero indication (R170). So no flag computation stands here. -/

namespace Sys2Proof.Machine

/-- `setOperands(a, b)` stores two 8-bit values (R170). -/
def aluSet (a b : Byte) (u : Alu) : Alu := { u with a := a, b := b }

/-- `computeSum()` stores `(a + b) mod 256` (R170). -/
def aluSum (u : Alu) : Alu := { u with r := u.a + u.b }

/-- `result()` returns the stored sum (R170). -/
def aluResult (u : Alu) : Byte := u.r

end Sys2Proof.Machine
end

