-- ==== Sys2Proof/Machine/Arithmetic.lean ====
section
/-! DEFINITION. ADD (R171). -/

namespace Sys2Proof.Machine

/-- ADD (R171): A and B go into the ALU, and its sum modulo 256 into C. -/
def execAdd (s : State) : Host.Outcome State Fault Refusal :=
  let alu := aluSum (aluSet (s.reg .A) (s.reg .B) s.alu)
  endCycle s.pc ({ s with alu := alu }.setReg .C (aluResult alu))

end Sys2Proof.Machine
end

