-- ==== Sys2Proof/Machine/BankSwitch.lean ====
section
/-! DEFINITION. NEXT_ROM_BANK (R200). -/

namespace Sys2Proof.Machine

/-- NEXT_ROM_BANK (R200): the sum of bank indexes is modulo 4. -/
def execNextRomBank (s : State) : Host.Outcome State Fault Refusal :=
  endCycle s.pc { s with bank := s.bank + 1 }

end Sys2Proof.Machine
end

