-- ==== Sys2Proof/Machine/CallStack.lean ====
section
/-! DEFINITION. JUMP and RETURN (R153, R154). -/

namespace Sys2Proof.Machine

/-- JUMP (R153): push the JUMP's own address, and back the counter up by one slot, so that the post-advance gives the
target. Refused at depth 14. -/
def execJump (target : Byte) (s : State) : Host.Outcome State Fault Refusal :=
  match push s.pc s with
  | none => refuse .stackOverflow s
  | some t => endCycle (target - Config.slotWidth) t

/-- RETURN (R154): pop, and let the post-advance go past the call. Refused at depth 0. -/
def execReturn (s : State) : Host.Outcome State Fault Refusal :=
  match pop s with
  | none => refuse .stackEmpty s
  | some (addr, t) => endCycle addr t

end Sys2Proof.Machine
end

