-- ==== Sys2Proof/Machine/DataMemory.lean ====
section
/-! DEFINITION. SET_RAM_POINTER, RAM_SET and LD (R180, R181, R182). -/

namespace Sys2Proof.Machine

/-- SET_RAM_POINTER (R180): every value is accepted, 0xFF too. -/
def execSetRamPointer (value : Byte) (s : State) : Host.Outcome State Fault Refusal :=
  endCycle s.pc { s with ptr := value }

/-- RAM_SET (R181): refused when `ptr = 0xFF`. -/
def execRamSet (value : Byte) (s : State) : Host.Outcome State Fault Refusal :=
  match dataAddress s with
  | none => refuse .outOfRange s
  | some o => endCycle s.pc (s.ramWrite o value)

/-- LD (R182): `ptr = 0xFF` is examined first (R244), then the register id. -/
def execLd (registerId : Byte) (s : State) : Host.Outcome State Fault Refusal :=
  match dataAddress s with
  | none => refuse .outOfRange s
  | some o =>
    match registerOfId registerId with
    | none => refuse .invalidRegister s
    | some r => endCycle s.pc (s.setReg r (s.ramRead o))

end Sys2Proof.Machine
end

