-- ==== Sys2Proof/Machine/NopReserved.lean ====
section
/-! DEFINITION. NOP, END and the unrecognized opcodes: no state change (R140, R141, R142). -/

namespace Sys2Proof.Machine

/-- NOP (R140). -/
def execNop (s : State) : Host.Outcome State Fault Refusal := noOperation s

/-- END (R141): inert, no halt, no pause, no diagnostic. -/
def execEnd (s : State) : Host.Outcome State Fault Refusal := noOperation s

/-- Opcode 0x09 (R142). -/
def execUnrecognized09 (s : State) : Host.Outcome State Fault Refusal := noOperation s

/-- Opcodes 0x0A..0x0B (R142). -/
def execUnrecognized0A (_opcode : Byte) (s : State) : Host.Outcome State Fault Refusal := noOperation s

/-- Opcodes 0x0C..0x0F (R142). -/
def execUnrecognized0C (_opcode : Byte) (s : State) : Host.Outcome State Fault Refusal := noOperation s

/-- Opcodes 0x10..0x1F (R142). -/
def execUnrecognized10 (_opcode : Byte) (s : State) : Host.Outcome State Fault Refusal := noOperation s

/-- Opcodes 0x20..0x3F (R142). -/
def execUnrecognized20 (_opcode : Byte) (s : State) : Host.Outcome State Fault Refusal := noOperation s

/-- Opcodes 0x40..0x7F (R142). -/
def execUnrecognized40 (_opcode : Byte) (s : State) : Host.Outcome State Fault Refusal := noOperation s

/-- Opcodes 0x80..0xFF (R142). -/
def execUnrecognized80 (_opcode : Byte) (s : State) : Host.Outcome State Fault Refusal := noOperation s

end Sys2Proof.Machine
end

