-- ==== Sys2Proof/Machine/Dispatch.lean ====
section
/-! DEFINITION. One arm per instruction: phases 2 to 4 of the cycle (R122, R123, R124). -/

namespace Sys2Proof.Machine

def exec (i : Instr) (s : State) : Host.Outcome State Fault Refusal :=
  match i with
  | .nop => Sys2Proof.Machine.execNop s
  | .jump target => Sys2Proof.Machine.execJump target s
  | .ret => Sys2Proof.Machine.execReturn s
  | .add => Sys2Proof.Machine.execAdd s
  | .setRamPointer value => Sys2Proof.Machine.execSetRamPointer value s
  | .ramSet value => Sys2Proof.Machine.execRamSet value s
  | .ld registerId => Sys2Proof.Machine.execLd registerId s
  | .nextRomBank => Sys2Proof.Machine.execNextRomBank s
  | .endMarker => Sys2Proof.Machine.execEnd s
  | .unrecognized09 => Sys2Proof.Machine.execUnrecognized09 s
  | .unrecognized0A opcode => Sys2Proof.Machine.execUnrecognized0A opcode s
  | .unrecognized0C opcode => Sys2Proof.Machine.execUnrecognized0C opcode s
  | .unrecognized10 opcode => Sys2Proof.Machine.execUnrecognized10 opcode s
  | .unrecognized20 opcode => Sys2Proof.Machine.execUnrecognized20 opcode s
  | .unrecognized40 opcode => Sys2Proof.Machine.execUnrecognized40 opcode s
  | .unrecognized80 opcode => Sys2Proof.Machine.execUnrecognized80 opcode s

end Sys2Proof.Machine
end

