-- ==== Sys2Proof/Machine/HostOps.lean ====
section
/-! DEFINITION. What the host's transactions do to the state, all but `step()` (R212 to R221, R270). A transaction that is
rejected answers an error and no state (R222). -/

namespace Sys2Proof.Machine

/-- The kinds of HOST_ERROR (R222). -/
inductive HostError where
  | invalidBank
  | outOfRange
  | invalidRegister
deriving DecidableEq, Repr

/-- A program image: the bytes of one bank (R219). -/
abbrev Image := Vector Byte 255

/-- An image for each bank (R220). -/
abbrev Images := Vector Image 4

/-- What `snapshot()` returns (R218). -/
structure Snapshot where
  activeBankIndex : Fin 4
  programCounter : Byte
  dataPointer : Byte
  registers : Vector Byte 4
  stackDepth : Fin 15
  stackContents : Vector Byte 15
deriving DecidableEq, Repr

/-- `setPaused(v)` (R212). -/
def setPaused (v : Bool) (s : State) : State := { s with paused := v }

/-- Write a byte of a bank at the offset `o`, or drop it where no cell is (R213's padding byte at 0xFF). -/
def romWriteOrDrop (k : Fin 4) (o : Nat) (v : Byte) (s : State) : State :=
  if h : o < 255 then s.romWrite k ⟨o, h⟩ v else s

/-- Write the four bytes of a slot at ascending offsets from `o` on (R67, R213). -/
def writeSlot (k : Fin 4) (o : Byte) (sl : Slot) (s : State) : State :=
  romWriteOrDrop k (o.toNat + 3) sl.unused
    (romWriteOrDrop k (o.toNat + 2) sl.operand
      (romWriteOrDrop k (o.toNat + 1) sl.parameter
        (romWriteOrDrop k o.toNat sl.opcode s)))

/-- `pokeInstruction(b, o, op, pa, od)` (R213): a byte offset, the fourth byte 0x00. -/
def pokeInstruction (b o op pa od : Byte) (s : State) : Except HostError State :=
  match bankOf b with
  | none => .error .invalidBank
  | some k =>
    if o.toNat ≤ Config.lastFetch then .ok (writeSlot k o ⟨op, pa, od, 0x00⟩ s)
    else .error .outOfRange

/-- The ROM byte that a bank and an offset name, or the rejection (R214). Where both are invalid the spec does not say which
kind is reported (log entry 6). -/
def romAddress (write : Bool) (b o : Byte) : Except HostError (Fin 4 × Offset) :=
  match bankOf b, offsetOf o with
  | some k, some a => .ok (k, a)
  | none, some _ => .error .invalidBank
  | some _, none => .error .outOfRange
  | none, none => .error (if Config.romErrorIsBank write b o then .invalidBank else .outOfRange)

/-- `readRom(b, o)`, whatever the active bank (R214). -/
def readRom (b o : Byte) (s : State) : Except HostError Byte :=
  match romAddress false b o with
  | .ok (k, a) => .ok (s.romRead k a)
  | .error e => .error e

/-- `writeRom(b, o, v)`, whatever the active bank (R214). -/
def writeRom (b o v : Byte) (s : State) : Except HostError State :=
  match romAddress true b o with
  | .ok (k, a) => .ok (s.romWrite k a v)
  | .error e => .error e

/-- `pokeData(o, v)` (R215). -/
def pokeData (o v : Byte) (s : State) : Except HostError State :=
  match offsetOf o with
  | some a => .ok (s.ramWrite a v)
  | none => .error .outOfRange

/-- `readData(o)` (R215). -/
def readData (o : Byte) (s : State) : Except HostError Byte :=
  match offsetOf o with
  | some a => .ok (s.ramRead a)
  | none => .error .outOfRange

/-- `setDataPointer(v)` (R216). -/
def setDataPointer (v : Byte) (s : State) : State := { s with ptr := v }

/-- `setRegister(id, v)` (R217). -/
def setRegister (id v : Byte) (s : State) : Except HostError State :=
  match registerOfId id with
  | some r => .ok (s.setReg r v)
  | none => .error .invalidRegister

/-- `snapshot()` (R218). -/
def snapshot (s : State) : Snapshot where
  activeBankIndex := s.bank
  programCounter := s.pc
  dataPointer := s.ptr
  registers := #v[s.reg .A, s.reg .B, s.reg .C, s.reg .D]
  stackDepth := s.depth
  stackContents := Vector.ofFn fun k => s.ramRead (stackSlot k)

/-- The contents of a bank after a load: the image, or all 0x00 when none is supplied (R219). -/
def imageMemory : Option Image → Memory
  | none => []
  | some img => Memory.ofBytes 0 img.toList

/-- Load one bank (R219). -/
def loadBank (k : Fin 4) (img : Option Image) (s : State) : State :=
  { s with rom := s.rom.set k.val (imageMemory img) k.isLt }

/-- `loadProgramBank(b, img)` (R219). -/
def loadProgramBank (b : Byte) (img : Option Image) (s : State) : Except HostError State :=
  match bankOf b with
  | some k => .ok (loadBank k img s)
  | none => .error .invalidBank

/-- `loadAllBanks(imgs)`: banks 0, 1, 2, 3 in turn (R220). -/
def loadAllBanks (imgs : Option Images) (s : State) : State :=
  loadBank 3 (imgs.map (·[3])) (loadBank 2 (imgs.map (·[2])) (loadBank 1 (imgs.map (·[1])) (loadBank 0 (imgs.map (·[0])) s)))

/-- `readVram(o)` (R221). -/
def readVram (o : Byte) (s : State) : Except HostError Byte :=
  match offsetOf o with
  | some a => .ok (s.vramRead a)
  | none => .error .outOfRange

/-- `writeVram(o, v)` (R221). -/
def writeVram (o v : Byte) (s : State) : Except HostError State :=
  match offsetOf o with
  | some a => .ok (s.vramWrite a v)
  | none => .error .outOfRange

/-- `reset(imgs)` (R270), for either value of `RESET_PAUSED`: every item is set. -/
def resetCore (resetPaused : Bool) (imgs : Option Images) (s : State) : State :=
  { loadAllBanks imgs s with
    ram := []
    vram := []
    regs := ⟨0, 0, 0, 0⟩
    pc := 0x00
    bank := 0
    ptr := 0x00
    depth := 0
    latch := Latch.noOp
    alu := ⟨0, 0, 0⟩
    paused := resetPaused
    diagnostics := [] }

/-- A slot placed where the next step fetches, by the host's means: the engine is set to Running, and the bytes go to `pc` in
the active bank. From a `pc` that can fetch nothing (R121), the counter is moved to 0x00 (log entry 2). -/
def placeSlot (sl : Slot) (s : State) : State :=
  let pc := if s.pc.toNat ≤ Config.lastFetch then s.pc else 0x00
  writeSlot s.bank pc sl { s with paused := false, pc := pc }

end Sys2Proof.Machine
end

