-- ==== Sys2Proof/Machine/Step.lean ====
section
/-! DEFINITION. One host `step()`: the instruction cycle (R120). -/

namespace Sys2Proof.Machine

/-- `step()` (R120): nothing while paused; an out-of-range fetch; or the fetched bytes go into the latch, are decoded and
executed. `exec` holds phases 2 to 4. -/
def step (s : State) : Host.Outcome State Fault Refusal :=
  if s.paused then .next s
  else
    match fetch s with
    | none => outOfRangeFetch s
    | some l => exec (decode l.opcode l.parameter l.operand) (s.loadLatch l)

/-- The state with the slot of an opcode-table word (R98) where `step` fetches next, and the engine running. -/
def State.withFetchWord (s : State) (nbits w : Nat) : State := placeSlot (slotOfTableWord nbits w) s

end Sys2Proof.Machine
end

