-- ==== Sys2Proof/Machine/HostInterface.lean ====
section
/-! DEFINITION. The control surface: the transactions of R210, each one atomic, and runs of them. The host's choice of
transactions is the machine's only input (R72, R76, R225). -/

namespace Sys2Proof.Machine

/-- The host's transactions (R210). -/
inductive Transaction where
  | step
  | setPaused (v : Bool)
  | isPaused
  | pokeInstruction (b o op pa od : Byte)
  | readRom (b o : Byte)
  | writeRom (b o v : Byte)
  | pokeData (o v : Byte)
  | readData (o : Byte)
  | setDataPointer (v : Byte)
  | setRegister (id v : Byte)
  | snapshot
  | loadProgramBank (b : Byte) (img : Option Image)
  | loadAllBanks (imgs : Option Images)
  | readVram (o : Byte)
  | writeVram (o v : Byte)
  | reset (imgs : Option Images)
deriving DecidableEq, Repr

/-- What a transaction returns (R210). -/
inductive Response where
  /-- No result. -/
  | done
  /-- OK. -/
  | ok
  | bool (v : Bool)
  | byte (v : Byte)
  | record (r : Snapshot)
  /-- HOST_ERROR(kind). -/
  | hostError (k : HostError)
deriving DecidableEq, Repr

/-- The answer of a write that may be rejected: a rejection changes nothing (R222). -/
def answerWrite (r : Except HostError State) (s : State) : Host.Outcome (Response × State) Fault Refusal :=
  match r with
  | .ok t => .next (.ok, t)
  | .error k => .next (.hostError k, s)

/-- The answer of a read: it has no side effect (R224). -/
def answerRead (r : Except HostError Byte) (s : State) : Host.Outcome (Response × State) Fault Refusal :=
  match r with
  | .ok v => .next (.byte v, s)
  | .error k => .next (.hostError k, s)

/-- The answer of `step()` (R211). -/
def answerStep (o : Host.Outcome State Fault Refusal) : Host.Outcome (Response × State) Fault Refusal :=
  match o with
  | .next t => .next (.done, t)
  | .fault r => .fault r
  | .refused r => .refused r

/-- One transaction, accepted while Paused and while Running (R223). -/
def transact (t : Transaction) (s : State) : Host.Outcome (Response × State) Fault Refusal :=
  match t with
  | .step => answerStep (Sys2Proof.Machine.step s)
  | .setPaused v => .next (.done, Sys2Proof.Machine.setPaused v s)
  | .isPaused => .next (.bool s.paused, s)
  | .pokeInstruction b o op pa od => answerWrite (Sys2Proof.Machine.pokeInstruction b o op pa od s) s
  | .readRom b o => answerRead (Sys2Proof.Machine.readRom b o s) s
  | .writeRom b o v => answerWrite (Sys2Proof.Machine.writeRom b o v s) s
  | .pokeData o v => answerWrite (Sys2Proof.Machine.pokeData o v s) s
  | .readData o => answerRead (Sys2Proof.Machine.readData o s) s
  | .setDataPointer v => .next (.done, Sys2Proof.Machine.setDataPointer v s)
  | .setRegister id v => answerWrite (Sys2Proof.Machine.setRegister id v s) s
  | .snapshot => .next (.record (Sys2Proof.Machine.snapshot s), s)
  | .loadProgramBank b img => answerWrite (Sys2Proof.Machine.loadProgramBank b img s) s
  | .loadAllBanks imgs => .next (.ok, Sys2Proof.Machine.loadAllBanks imgs s)
  | .readVram o => answerRead (Sys2Proof.Machine.readVram o s) s
  | .writeVram o v => answerWrite (Sys2Proof.Machine.writeVram o v s) s
  | .reset imgs => .next (.done, resetCore Config.resetPaused imgs s)

/-- A finite run: the transactions in the host's order, with their responses (R72, R225). -/
def runTransactions : List Transaction → State → Host.Outcome (List Response × State) Fault Refusal
  | [], s => .next ([], s)
  | t :: ts, s =>
    match transact t s with
    | .fault r => .fault r
    | .refused r => .refused r
    | .next (a, s') =>
      match runTransactions ts s' with
      | .fault r => .fault r
      | .refused r => .refused r
      | .next (as, s'') => .next (a :: as, s'')

end Sys2Proof.Machine
end

