-- ==== Sys2Proof/Safety.lean ====
section
/-! DEFINITION. The terms the statements use: the machine's invariant, what the spec's tables assign to an instruction, and
the well-behaved runs of R155, R158 and R278. -/

namespace Sys2Proof.Machine

/-- The invariant of a state between transactions: every memory is in canonical form, with no byte beyond offset 0xFE
(R34, R35, R36, R61), and the decode latch holds its no-op value (R38). The bounds of `bank` and `depth` (R29, R32) are
those of their types. -/
structure State.Inv (s : State) : Prop where
  rom : ∀ b : Fin 4, s.rom[b].wf
  ram : s.ram.wf
  vram : s.vram.wf
  latch : s.latch = Latch.noOp

/-- The instruction at `pc` of the active bank, none when the fetch is out of range (R91, R121). -/
def fetched (s : State) : Option Instr :=
  (fetch s).map fun l => decode l.opcode l.parameter l.operand

/-- The byte of a bank that a load of all banks supplies: the image's, or 0x00 when none is supplied (R219, R220). -/
def imageByte (imgs : Option Images) (b : Fin 4) (o : Offset) : Byte :=
  match imgs with
  | none => 0x00
  | some images => images[b][o]

/-- The state after an instruction without effect: the latch cleared, the counter past the slot (R123, R124). -/
def State.idled (s : State) : State := { s with pc := s.pc + 4, latch := Latch.noOp }

/-- The state after a refused instruction: as `idled`, with one more event (R129, R241). -/
def State.refusedWith (s : State) (k : DiagKind) : State :=
  { s with pc := s.pc + 4, latch := Latch.noOp, diagnostics := s.diagnostics ++ [⟨k, s.pc, s.bank⟩] }

/-- The diagnostic that R241's table and R244's order give an instruction in a state. -/
def diagnosticOf (i : Instr) (s : State) : Option DiagKind :=
  match i with
  | .jump _ => if s.depth.val = 14 then some .stackOverflow else none
  | .ret => if s.depth.val = 0 then some .stackEmpty else none
  | .ramSet _ => if s.ptr = 0xFF then some .outOfRange else none
  | .ld registerId =>
    if s.ptr = 0xFF then some .outOfRange
    else if 3 < registerId.toNat then some .invalidRegister
    else none
  | .nop | .add | .setRamPointer _ | .nextRomBank | .endMarker | .unrecognized09 | .unrecognized0A _
  | .unrecognized0C _ | .unrecognized10 _ | .unrecognized20 _ | .unrecognized40 _ | .unrecognized80 _ => none

/-- The counter after an executed instruction, by the table of R125. -/
def counterAfter (i : Instr) (s : State) : Byte :=
  match i with
  | .jump target => if s.depth.val < 14 then target else s.pc + 4
  | .ret => if 0 < s.depth.val then s.ramRead (stackSlot (topSlot s)) + 4 else s.pc + 4
  | .ramSet _ | .ld _ | .nop | .add | .setRamPointer _ | .nextRomBank | .endMarker | .unrecognized09
  | .unrecognized0A _ | .unrecognized0C _ | .unrecognized10 _ | .unrecognized20 _ | .unrecognized40 _
  | .unrecognized80 _ => s.pc + 4

/-- Instructions executed one after another, whatever program memory holds. -/
def execAll : List Instr → State → Host.Outcome State Fault Refusal
  | [], s => .next s
  | i :: is, s =>
    match exec i s with
    | .next t => execAll is t
    | .fault r => .fault r
    | .refused r => .refused r

/-- The counter and every live return address are multiples of 4 (R278). -/
def State.Aligned (s : State) : Prop :=
  s.pc.toNat % 4 = 0 ∧ ∀ k : Fin 15, k < s.depth → (s.ramRead (stackSlot k)).toNat % 4 = 0

/-- An instruction of a program that keeps R278's discipline: a JUMP target is a multiple of 4, and no live stack slot is
overwritten with an unaligned value. -/
def Disciplined (i : Instr) (s : State) : Prop :=
  (∀ target, i = .jump target → target.toNat % 4 = 0) ∧
  ∀ value, i = .ramSet value → ∀ k : Fin 15, k < s.depth → dataAddress s = some (stackSlot k) → value.toNat % 4 = 0

/-- From one state to another by instructions whose calls are matched: outside a call any instruction but JUMP and RETURN,
with no store into the stack region (R277), and calls that the stack has room for, each closed by its RETURN. -/
inductive BalancedRun : State → State → Prop where
  | done (s : State) : BalancedRun s s
  | plain {s t u : State} (i : Instr) (notJump : ∀ target, i ≠ .jump target) (notReturn : i ≠ .ret)
      (noStackStore : ∀ value, i = .ramSet value → s.ptr.toNat < 0xF0)
      (run : exec i s = .next t) (rest : BalancedRun t u) : BalancedRun s u
  | call {s t u v w : State} (target : Byte) (room : s.depth.val < 14) (jump : exec (.jump target) s = .next t)
      (body : BalancedRun t u) (ret : exec .ret u = .next v) (rest : BalancedRun v w) : BalancedRun s w

end Sys2Proof.Machine
end

