-- ==== Sys2Proof/Certificates/Slice0/Obligations.lean ====
section
/-! DEFINITION. The statements for the provers. `exec` runs phases 2 to 4 of the cycle, so a next state's `pc` is the counter
after the step (R125). -/

open Sys2Proof Sys2Proof.Machine

/-! ## Encoding -/

/-- Slots written out from R93, R98 and R99 decode to the instructions they stand for (W8, V9, V10, R142's example). -/
def Obligations.SampleSlotsDecode : Prop :=
  decodeTableWord 32 0x00FFFFFF = some .nop ∧
  decodeTableWord 32 0x01003000 = some (.jump 0x30) ∧
  decodeTableWord 32 0x02000000 = some .ret ∧
  decodeTableWord 32 0x03039900 = some .add ∧
  decodeTableWord 32 0x0405F000 = some (.setRamPointer 0xF0) ∧
  decodeTableWord 32 0x0500AB00 = some (.ramSet 0xAB) ∧
  decodeTableWord 32 0x06020000 = some (.ld 0x02) ∧
  decodeTableWord 32 0x07000000 = some .nextRomBank ∧
  decodeTableWord 32 0x08123400 = some .endMarker ∧
  decodeTableWord 32 0x09000000 = some .unrecognized09 ∧
  decodeTableWord 32 0xC3123456 = some (.unrecognized80 0xC3)

/-- Decoding the slot of a well-formed instruction gives the instruction back, both from the slot's bytes in ascending
offsets (R67) and from the opcode-table word (R98). -/
def Obligations.DecodeOfEncodeIsTheInstruction : Prop :=
  ∀ i : Instr, i.WellFormed →
    decodeBytes (encode i).bytes = .ok i ∧ decodeTableWord 32 (encode i).toWord.toNat = some i

/-- Every slot matches one row of the opcode table, that of the instruction it decodes to, and decodes to a well-formed
instruction with the slot's own opcode (R93, R97, R98). -/
def Obligations.DecodePicksTheMatchingTableRow : Prop :=
  ∀ sl : Slot,
    (decode sl.opcode sl.parameter sl.operand).WellFormed ∧
    (decode sl.opcode sl.parameter sl.operand).opcode = sl.opcode ∧
    ∀ j : Instr, j.row.matches sl.toWord = true ↔ j.row = (decode sl.opcode sl.parameter sl.operand).row

/-- R95, the spec's own inference: "A field that an instruction does not use (rule R93) may hold any value, and that value
does not change what the instruction does." The operand is used by opcodes 0x01, 0x04 and 0x05, the parameter by 0x06. -/
def Obligations.UnusedFieldsChangeNothing : Prop :=
  ∀ (opcode parameter operand parameter' operand' : Byte) (s : State),
    (opcode = 0x01 ∨ opcode = 0x04 ∨ opcode = 0x05 → operand' = operand) →
    (opcode = 0x06 → parameter' = parameter) →
    exec (decode opcode parameter' operand') s = exec (decode opcode parameter operand) s

/-- R22 and R96: the register id is the whole byte; 0, 1, 2, 3 name A, B, C, D, and 4..255 name none. -/
def Obligations.RegisterIdIsTheWholeByte : Prop :=
  ∀ id : Byte,
    (∀ r : Reg, registerOfId id = some r ↔ id.toNat = r.id) ∧ (registerOfId id = none ↔ 4 ≤ id.toNat)

/-! ## The cycle -/

/-- When the three bytes at `pc`, `pc + 1`, `pc + 2` of the active bank decode to `i` and the engine is Running, a step is
`exec i` with those bytes in the decode latch. Nothing else is added around `exec` (R91, R120, R121). -/
def Obligations.StepRunsTheDecodedInstruction : Prop :=
  ∀ (s : State) (o0 o1 o2 : Offset) (i : Instr),
    s.paused = false →
    o0.val = s.pc.toNat → o1.val = s.pc.toNat + 1 → o2.val = s.pc.toNat + 2 →
    decodeBytes [s.romRead s.bank o0, s.romRead s.bank o1, s.romRead s.bank o2] = .ok i →
    step s = exec i (s.loadLatch ⟨s.romRead s.bank o0, s.romRead s.bank o1, s.romRead s.bank o2⟩)

/-- A Running step with `pc` in 0xFD..0xFF executes nothing: one OUT_OF_RANGE event, `pc + 4` modulo 256, the rest as it was
(R61, R121). -/
def Obligations.OutOfRangeFetchExecutesNothing : Prop :=
  ∀ s : State, s.paused = false → 0xFC < s.pc.toNat →
    step s = .next { s with pc := s.pc + 4, diagnostics := s.diagnostics ++ [⟨.outOfRange, s.pc, s.bank⟩] }

/-- While Paused, any number of steps changes nothing (R28, R120, R255, W6). -/
def Obligations.PausedStepsChangeNothing : Prop :=
  ∀ (n : Nat) (s : State), s.paused = true → core.run n s = .next s

/-- Every step of every state ends in a next state: no condition traps or halts the engine (R126, R240). -/
def Obligations.EveryStepHasANextState : Prop :=
  ∀ s : State, ∃ t, step s = .next t

/-- R125, the spec's own inference from R120, R124, R153 and R154: the counter after each kind of step. -/
def Obligations.CounterAfterEachKindOfStep : Prop :=
  ∀ s : State, ∃ t, step s = .next t ∧
    (s.paused = true → t.pc = s.pc) ∧
    (s.paused = false → 0xFC < s.pc.toNat → t.pc = s.pc + 4) ∧
    ∀ i, s.paused = false → fetched s = some i → t.pc = counterAfter i s

/-- R123: after an executed instruction, refused or not, the decode latch holds (0x00, 0x00, 0x00). -/
def Obligations.LatchIsClearedAfterEveryInstruction : Prop :=
  ∀ (i : Instr) (s t : State), exec i s = .next t → t.latch = ⟨0x00, 0x00, 0x00⟩

/-- No instruction observes the decode latch: what it holds when the instruction executes makes no difference (R38). -/
def Obligations.LatchIsNotObservable : Prop :=
  ∀ (i : Instr) (s : State) (l : Latch), exec i (s.loadLatch l) = exec i s

/-! ## Instructions -/

/-- R140, R141, R142: NOP, END and every opcode from 0x09 on change nothing but the latch and the counter, whatever the
other bytes of the slot. -/
def Obligations.NopAndReservedOpcodesOnlyAdvance : Prop :=
  ∀ (opcode parameter operand : Byte) (s : State),
    (opcode = 0x00 ∨ 0x08 ≤ opcode.toNat → exec (decode opcode parameter operand) s = .next s.idled) ∧
    exec .nop s = .next s.idled ∧
    exec .endMarker s = .next s.idled ∧
    exec .unrecognized09 s = .next s.idled ∧
    exec (.unrecognized0A opcode) s = .next s.idled ∧
    exec (.unrecognized0C opcode) s = .next s.idled ∧
    exec (.unrecognized10 opcode) s = .next s.idled ∧
    exec (.unrecognized20 opcode) s = .next s.idled ∧
    exec (.unrecognized40 opcode) s = .next s.idled ∧
    exec (.unrecognized80 opcode) s = .next s.idled

/-- R153 (with the spec's decisions D5 and D7): below depth 14 JUMP writes its own address to the slot of the old depth,
raises the depth by one and goes to its target; at depth 14 it is refused. -/
def Obligations.JumpPushesItsOwnAddressAndGoesToTheTarget : Prop :=
  ∀ (parameter target : Byte) (s : State),
    decode 0x01 parameter target = .jump target ∧
    (s.depth.val < 14 → ∃ t, exec (.jump target) s = .next t ∧
      t = { s with pc := target, latch := Latch.noOp, depth := t.depth, ram := t.ram } ∧
      t.depth.val = s.depth.val + 1 ∧
      (∀ o, t.ramRead o = if o = stackSlot s.depth then s.pc else s.ramRead o)) ∧
    (s.depth.val = 14 → exec (.jump target) s = .next (s.refusedWith .stackOverflow))

/-- R154 (with the spec's decisions D5 and D6): above depth 0 RETURN lowers the depth by one, zeroes the slot it reads and
goes four past the byte the slot held; at depth 0 it is refused. -/
def Obligations.ReturnPopsAndGoesPastTheCall : Prop :=
  ∀ (parameter operand : Byte) (s : State),
    decode 0x02 parameter operand = .ret ∧
    (0 < s.depth.val → ∃ t, exec .ret s = .next t ∧
      t = { s with pc := s.ramRead (stackSlot (topSlot s)) + 4, latch := Latch.noOp, depth := t.depth, ram := t.ram } ∧
      t.depth.val = s.depth.val - 1 ∧
      (∀ o, t.ramRead o = if o = stackSlot (topSlot s) then 0x00 else s.ramRead o)) ∧
    (s.depth.val = 0 → exec .ret s = .next (s.refusedWith .stackEmpty))

/-- R171: ADD writes A + B modulo 256 to C through the ALU latches, and leaves A, B and D. -/
def Obligations.AddWritesTheSumToC : Prop :=
  ∀ (parameter operand : Byte) (s : State),
    decode 0x03 parameter operand = .add ∧
    ∃ t, exec .add s = .next t ∧
      t = { s with pc := s.pc + 4, latch := Latch.noOp, regs := t.regs,
                   alu := ⟨s.reg .A, s.reg .B, s.reg .A + s.reg .B⟩ } ∧
      (t.reg .C).toNat = ((s.reg .A).toNat + (s.reg .B).toNat) % 256 ∧
      t.reg .A = s.reg .A ∧ t.reg .B = s.reg .B ∧ t.reg .D = s.reg .D

/-- R180: SET_RAM_POINTER sets `ptr` to its operand, every value accepted. -/
def Obligations.SetRamPointerSetsThePointer : Prop :=
  ∀ (parameter value : Byte) (s : State),
    decode 0x04 parameter value = .setRamPointer value ∧
    exec (.setRamPointer value) s = .next { s with pc := s.pc + 4, latch := Latch.noOp, ptr := value }

/-- R181 (with the spec's decision D2): RAM_SET writes its operand at `ptr` and nowhere else; with `ptr = 0xFF` it is
refused. -/
def Obligations.RamSetStoresAtThePointer : Prop :=
  ∀ (parameter value : Byte) (s : State),
    decode 0x05 parameter value = .ramSet value ∧
    (∀ a : Offset, a.val = s.ptr.toNat → dataAddress s = some a ∧ ∃ t, exec (.ramSet value) s = .next t ∧
      t = { s with pc := s.pc + 4, latch := Latch.noOp, ram := t.ram } ∧
      ∀ o, t.ramRead o = if o = a then value else s.ramRead o) ∧
    (s.ptr = 0xFF → exec (.ramSet value) s = .next (s.refusedWith .outOfRange))

/-- R182 (with the spec's decisions D2 and D8): LD copies the RAM byte at `ptr` to the register its parameter names and to no
other; with `ptr = 0xFF` it is refused as OUT_OF_RANGE, and else, with a parameter above 3, as INVALID_REGISTER. -/
def Obligations.LdCopiesTheByteAtThePointer : Prop :=
  ∀ (registerId operand : Byte) (s : State),
    decode 0x06 registerId operand = .ld registerId ∧
    (∀ (a : Offset) (r : Reg), a.val = s.ptr.toNat → registerId.toNat = r.id →
      ∃ t, exec (.ld registerId) s = .next t ∧
        t = { s with pc := s.pc + 4, latch := Latch.noOp, regs := t.regs } ∧
        ∀ q, t.reg q = if q = r then s.ramRead a else s.reg q) ∧
    (s.ptr = 0xFF → exec (.ld registerId) s = .next (s.refusedWith .outOfRange)) ∧
    (s.ptr ≠ 0xFF → 3 < registerId.toNat → exec (.ld registerId) s = .next (s.refusedWith .invalidRegister))

/-- R200: NEXT_ROM_BANK advances the bank index by one modulo 4 and changes no bank's contents. -/
def Obligations.NextRomBankAdvancesTheBank : Prop :=
  ∀ (parameter operand : Byte) (s : State),
    decode 0x07 parameter operand = .nextRomBank ∧
    ∃ t, exec .nextRomBank s = .next t ∧
      t = { s with pc := s.pc + 4, latch := Latch.noOp, bank := t.bank } ∧
      t.bank.val = (s.bank.val + 1) % 4

/-! ## Frames over all instructions -/

/-- No instruction changes a register but ADD, which writes C, and LD, which writes the register its parameter names
(R23). -/
def Obligations.RegistersChangeOnlyByAddAndLd : Prop :=
  ∀ (i : Instr) (s t : State) (r : Reg), exec i s = .next t → t.reg r ≠ s.reg r →
    (i = .add ∧ r = .C) ∨ ∃ id, i = .ld id ∧ registerOfId id = some r

/-- R64, the stores: a RAM byte changes only at `ptr` by RAM_SET, at the slot of the old depth by JUMP, and at the slot below
it by RETURN. -/
def Obligations.RamChangesOnlyWhereAnInstructionStores : Prop :=
  ∀ (i : Instr) (s t : State) (o : Offset), exec i s = .next t → t.ramRead o ≠ s.ramRead o →
    (∃ value, i = .ramSet value ∧ dataAddress s = some o) ∨
    (∃ target, i = .jump target ∧ o = stackSlot s.depth ∧ s.depth.val < 14) ∨
    (i = .ret ∧ o = stackSlot (topSlot s) ∧ 0 < s.depth.val)

/-- No instruction writes `paused`; `bank` is written by NEXT_ROM_BANK alone, `ptr` by SET_RAM_POINTER alone, `depth` by JUMP
and RETURN alone, and the ALU latches by ADD alone (R28 to R31, R33, R39). -/
def Obligations.ControlStateHasTheStatedWriters : Prop :=
  ∀ (i : Instr) (s t : State), exec i s = .next t →
    t.paused = s.paused ∧
    (t.bank ≠ s.bank → i = .nextRomBank) ∧
    (t.ptr ≠ s.ptr → ∃ value, i = .setRamPointer value) ∧
    (t.depth ≠ s.depth → i = .ret ∨ ∃ target, i = .jump target) ∧
    (t.alu ≠ s.alu → i = .add)

/-- A step writes no byte of program memory and none of the byte-plane (R62, R65, R75). -/
def Obligations.StepWritesNoRomAndNoVram : Prop :=
  ∀ s t : State, step s = .next t →
    (∀ (b : Fin 4) (o : Offset), t.romRead b o = s.romRead b o) ∧ ∀ o : Offset, t.vramRead o = s.vramRead o

/-- R65: an instruction neither writes the byte-plane nor reads it: with other contents there, its effect is the same. -/
def Obligations.NoInstructionReachesVram : Prop :=
  ∀ (i : Instr) (s t : State) (v : Memory), exec i s = .next t →
    t.vram = s.vram ∧ exec i { s with vram := v } = .next { t with vram := v }

/-- A step reads program memory only at the three fetched bytes of the active bank: with any other contents elsewhere, in the
padding byte and in the other banks, it does the same (R62, R91, R201). -/
def Obligations.StepReadsOnlyTheFetchedBytes : Prop :=
  ∀ (s t : State) (rom : Vector Memory 4),
    (∀ o : Offset, s.pc.toNat ≤ o.val → o.val ≤ s.pc.toNat + 2 → rom[s.bank].read o.val = s.romRead s.bank o) →
    step s = .next t → step { s with rom := rom } = .next { t with rom := rom }

/-- R39's inference that no observable behaviour depends on the ALU latches: with other values there before a step, a
transaction (`snapshot()` among them, R218) or a run of transactions, every response is the same, and the state after it differs
at most in the ALU latches. -/
def Obligations.AluLatchesAreNotObservable : Prop :=
  (∀ (s t : State) (u : Alu), step s = .next t → ∃ u', step { s with alu := u } = .next { t with alu := u' }) ∧
  (∀ (x : Transaction) (s t : State) (a : Response) (u : Alu), transact x s = .next (a, t) →
    ∃ u', transact x { s with alu := u } = .next (a, { t with alu := u' })) ∧
  ∀ (xs : List Transaction) (s t : State) (as : List Response) (u : Alu), runTransactions xs s = .next (as, t) →
    ∃ u', runTransactions xs { s with alu := u } = .next (as, { t with alu := u' })

/-! ## Diagnostics -/

/-- R244 (with the spec's decision D8): the events a step appends are exactly these: none while Paused, one OUT_OF_RANGE for an
out-of-range fetch, and else the one, if any, that the instruction's own conditions give first. -/
def Obligations.StepAppendsTheFirstConditionsEvent : Prop :=
  ∀ s t : State, step s = .next t →
    (s.paused = true → t.diagnostics = s.diagnostics) ∧
    (s.paused = false → 0xFC < s.pc.toNat → t.diagnostics = s.diagnostics ++ [⟨.outOfRange, s.pc, s.bank⟩]) ∧
    ∀ i, s.paused = false → fetched s = some i →
      t.diagnostics = s.diagnostics ++ ((diagnosticOf i s).map fun k => (⟨k, s.pc, s.bank⟩ : Event)).toList

/-- R129: an instruction that raises a diagnostic has no effect but the event, the latch clear and the post-advance. -/
def Obligations.RefusalIsAllOrNothing : Prop :=
  ∀ (i : Instr) (s t : State), exec i s = .next t → t.diagnostics ≠ s.diagnostics →
    ∃ k, t = s.refusedWith k ∧ diagnosticOf i s = some k

/-- No transaction but `reset` removes an event: the output before is a prefix of the output after (R40, R245). -/
def Obligations.DiagnosticOutputOnlyGrows : Prop :=
  ∀ (x : Transaction) (s t : State) (a : Response), transact x s = .next (a, t) →
    (∃ imgs, x = .reset imgs) ∨ s.diagnostics <+: t.diagnostics

/-! ## The call stack -/

/-- R151: a push at depth 14 writes nothing; else it writes the address at RAM offset 0xF0 + depth, which lies in
0xF0..0xFD, and raises the depth by one. -/
def Obligations.PushWritesTheSlotOfTheDepth : Prop :=
  ∀ (address : Byte) (s : State),
    (s.depth.val = 14 → push address s = none) ∧
    (s.depth.val ≠ 14 → 0xF0 + s.depth.val ≤ 0xFD ∧ ∃ t, push address s = some t ∧
      t = { s with ram := t.ram, depth := t.depth } ∧ t.depth.val = s.depth.val + 1 ∧
      ∀ o : Offset, t.ramRead o = if o.val = 0xF0 + s.depth.val then address else s.ramRead o)

/-- R152 (with the spec's decision D6): a pop at depth 0 writes nothing; else it lowers the depth by one, and reads and zeroes
the byte at RAM offset 0xF0 + the new depth, which lies in 0xF0..0xFD. It returns that byte and leaves the counter: the
restoring of the counter from it is RETURN's (R154, `ReturnPopsAndGoesPastTheCall`). -/
def Obligations.PopReadsAndZeroesTheTopSlot : Prop :=
  ∀ s : State,
    (s.depth.val = 0 → pop s = none) ∧
    (s.depth.val ≠ 0 → 0xF0 + (s.depth.val - 1) ≤ 0xFD ∧ ∃ a t, pop s = some (a, t) ∧
      t = { s with ram := t.ram, depth := t.depth } ∧ t.depth.val = s.depth.val - 1 ∧
      (∀ o : Offset, o.val = 0xF0 + (s.depth.val - 1) → s.ramRead o = a) ∧
      ∀ o : Offset, t.ramRead o = if o.val = 0xF0 + (s.depth.val - 1) then 0x00 else s.ramRead o)

/-- R155, the spec's own inference from R153 and R154: a successful JUMP leaves the counter at its target, and a RETURN at the
same depth with the slot unchanged leaves it at the slot after the JUMP, the depth back. -/
def Obligations.ReturnGoesToTheSlotAfterTheJump : Prop :=
  ∀ (target : Byte) (s t u : State), s.depth.val < 14 → exec (.jump target) s = .next t →
    u.depth = t.depth → u.ramRead (stackSlot s.depth) = t.ramRead (stackSlot s.depth) →
    t.pc = target ∧ ∃ v, exec .ret u = .next v ∧ v.pc = s.pc + 4 ∧ v.depth = s.depth

/-- Matched calls, nested to any depth the stack has room for, return to the slot after the call, with the depth and every live
stack slot as before: R155 for whole call trees, without stores into the stack region (R277). -/
def Obligations.BalancedRunKeepsTheCallStack : Prop :=
  (∀ s t : State, BalancedRun s t →
    t.depth = s.depth ∧ ∀ k : Fin 15, k < s.depth → t.ramRead (stackSlot k) = s.ramRead (stackSlot k)) ∧
  ∀ (target : Byte) (s t u v : State), s.depth.val < 14 → exec (.jump target) s = .next t → BalancedRun t u →
    exec .ret u = .next v → v.pc = s.pc + 4 ∧ v.depth = s.depth

/-- R156: a stack slot is a RAM byte. LD through a `ptr` in 0xF0..0xFE reads it, RAM_SET overwrites it, and a RETURN from it goes
four past the value it then holds. -/
def Obligations.StackSlotsAreRamBytes : Prop :=
  ∀ (s : State) (k : Fin 15), s.ptr.toNat = 0xF0 + k.val →
    (∀ (id : Byte) (r : Reg), registerOfId id = some r →
      ∃ t, exec (.ld id) s = .next t ∧ t.reg r = s.ramRead (stackSlot k)) ∧
    ∀ value : Byte, ∃ t, exec (.ramSet value) s = .next t ∧ t.ramRead (stackSlot k) = value ∧
      (s.depth.val = k.val + 1 → ∃ u, exec .ret t = .next u ∧ u.pc = value + 4)

/-- R158, the spec's own inference from R151 and R153: from depth 0, fourteen JUMPs with no RETURN between succeed without a
diagnostic; a fifteenth changes neither depth nor RAM, goes to its successor slot and raises one STACK_OVERFLOW. -/
def Obligations.FifteenthNestedJumpIsRefused : Prop :=
  ∀ (targets : List Byte) (last : Byte) (s : State), targets.length = 14 → s.depth.val = 0 →
    ∃ t u, execAll (targets.map Instr.jump) s = .next t ∧ t.depth.val = 14 ∧ t.diagnostics = s.diagnostics ∧
      exec (.jump last) t = .next u ∧ u.depth = t.depth ∧ (∀ o, u.ramRead o = t.ramRead o) ∧ u.pc = t.pc + 4 ∧
      u.diagnostics = t.diagnostics ++ [⟨.stackOverflow, t.pc, t.bank⟩]

/-- From R278, the spec's own inference: an aligned state can fetch, and a step whose instruction keeps the discipline leaves the
counter and every live return address a multiple of 4. -/
def Obligations.DisciplinedStepKeepsAlignment : Prop :=
  ∀ s : State, s.Aligned →
    ∃ i, fetched s = some i ∧ ∀ t, step s = .next t → Disciplined i s → t.Aligned

/-- R202, the spec's own inference from R200 and R201: four NEXT_ROM_BANK in a row, at consecutive slots of the four banks in
turn, bring the bank index back, with every bank's contents as before. -/
def Obligations.FourBankSwitchesReturnToTheBank : Prop :=
  ∀ s : State, s.paused = false →
    (∀ k : Fin 4, fetched { s with bank := s.bank + k, pc := s.pc + BitVec.ofNat 8 (4 * k.val) } = some .nextRomBank) →
    ∃ t : State, core.run 4 s = .next t ∧ t.bank = s.bank ∧ t.rom = s.rom ∧ t.pc = s.pc + 16

/-- From R200 and R201: after NEXT_ROM_BANK at offset `o` of bank `b`, the next step of the engine fetches at offset `o + 4` modulo
256 of bank `b + 1` modulo 4. -/
def Obligations.NextFetchReadsTheNewBank : Prop :=
  ∀ s : State, s.paused = false → fetched s = some .nextRomBank → ∃ t, step s = .next t ∧
    t.bank.val = (s.bank.val + 1) % 4 ∧ t.pc.toNat = (s.pc.toNat + 4) % 256 ∧
    ∀ o0 o1 o2 : Offset, o0.val = t.pc.toNat → o1.val = t.pc.toNat + 1 → o2.val = t.pc.toNat + 2 →
      fetched t = some (decode (s.romRead t.bank o0) (s.romRead t.bank o1) (s.romRead t.bank o2))

/-! ## Invariants -/

/-- `reset`, with any images and from any state, leaves the invariant; so does the reset state. -/
def Obligations.ResetMeetsTheInvariant : Prop :=
  State.reset.Inv ∧ ∀ (p : Bool) (imgs : Option Images) (s : State), (resetCore p imgs s).Inv

/-- A step keeps the invariant: canonical memories with no byte beyond 0xFE, and the latch clear between steps (R38, R61). -/
def Obligations.StepKeepsTheInvariant : Prop :=
  ∀ s t : State, s.Inv → step s = .next t → t.Inv

/-- Every transaction of the host keeps the invariant, and so does every run of transactions. -/
def Obligations.TransactionsKeepTheInvariant : Prop :=
  (∀ (x : Transaction) (s t : State) (a : Response), s.Inv → transact x s = .next (a, t) → t.Inv) ∧
  ∀ (xs : List Transaction) (s t : State) (as : List Response), s.Inv → runTransactions xs s = .next (as, t) → t.Inv

/-- The canonical form is canonical (the model's choice of data, log entry 7): two states with the invariant whose bytes read
alike hold equal memories. -/
def Obligations.EqualBytesAreEqualMemories : Prop :=
  ∀ s t : State, s.Inv → t.Inv →
    (∀ (b : Fin 4) (o : Offset), s.romRead b o = t.romRead b o) → (∀ o : Offset, s.ramRead o = t.ramRead o) →
    (∀ o : Offset, s.vramRead o = t.vramRead o) → s.rom = t.rom ∧ s.ram = t.ram ∧ s.vram = t.vram

/-! ## The host interface -/

/-- R270 (with the spec's decisions D9, D10 and D19): `reset(imgs)` sets every item, whatever the state before. The value of
`paused` is the open parameter (log entry 1). The reset state of the model is the one with no images. -/
def Obligations.ResetSetsEveryItem : Prop :=
  ∀ (imgs : Option Images) (s : State), ∃ t, transact (.reset imgs) s = .next (.done, t) ∧
    (∀ r, t.reg r = 0x00) ∧ t.pc = 0x00 ∧ t.bank = 0 ∧ t.ptr = 0x00 ∧ t.depth = 0 ∧
    (∀ o, t.ramRead o = 0x00) ∧ (∀ o, t.vramRead o = 0x00) ∧
    (∀ (b : Fin 4) (o : Offset), t.romRead b o = imageByte imgs b o) ∧
    t.latch = ⟨0x00, 0x00, 0x00⟩ ∧ t.alu = ⟨0x00, 0x00, 0x00⟩ ∧ t.paused = Config.resetPaused ∧ t.diagnostics = [] ∧
    (imgs = none → t = State.reset)

/-- R271: after `reset(imgs)` and `setPaused(false)`, the first step executes the slot at bank 0, offset 0x00. -/
def Obligations.FirstStepAfterResetRunsBankZeroOffsetZero : Prop :=
  ∀ (imgs : Option Images) (s : State), ∃ t a, runTransactions [.reset imgs, .setPaused false] s = .next (a, t) ∧
    step t = exec (decode (imageByte imgs 0 0) (imageByte imgs 0 1) (imageByte imgs 0 2)) t

/-- Every transaction answers a next state, while Paused and while Running (R126, R223, R225); `step()` executes exactly one
cycle, the machine's `step`, and returns nothing (R211). -/
def Obligations.EveryTransactionAnswers : Prop :=
  (∀ (x : Transaction) (s : State), ∃ a t, transact x s = .next (a, t)) ∧
  ∀ s : State, ∃ t, step s = .next t ∧ transact .step s = .next (.done, t)

/-- `paused` is changed by `setPaused` and `reset` alone, and `setPaused(v)` sets it to `v`, which `isPaused` then returns, with
nothing else changed (R126, R212, R270). -/
def Obligations.PausedIsTheHosts : Prop :=
  (∀ (v : Bool) (s : State), transact (.setPaused v) s = .next (.done, { s with paused := v }) ∧
    transact .isPaused { s with paused := v } = .next (.bool v, { s with paused := v })) ∧
  ∀ (x : Transaction) (s t : State) (a : Response), transact x s = .next (a, t) → t.paused ≠ s.paused →
    x = .setPaused t.paused ∨ ∃ imgs, x = .reset imgs

/-- No transaction but `step` and `reset` writes `pc`, `bank`, `depth`, the latches or the diagnostic output (R26, R29, R31,
R38, R39, R222). -/
def Obligations.OnlyStepAndResetWriteTheEngine : Prop :=
  ∀ (x : Transaction) (s t : State) (a : Response), transact x s = .next (a, t) → x ≠ .step → (∀ imgs, x ≠ .reset imgs) →
    t.pc = s.pc ∧ t.bank = s.bank ∧ t.depth = s.depth ∧ t.latch = s.latch ∧ t.alu = s.alu ∧
      t.diagnostics = s.diagnostics

/-- R213 (with the spec's decision D14): a poke writes its three bytes and a zero at ascending offsets of the named bank, the
padding byte dropped where it would fall at 0xFF, and no other byte; a bank above 3 is rejected, then an offset above
0xFC. -/
def Obligations.PokeInstructionWritesOneSlot : Prop :=
  ∀ (b o op pa od : Byte) (s : State),
    (3 < b.toNat → transact (.pokeInstruction b o op pa od) s = .next (.hostError .invalidBank, s)) ∧
    (b.toNat ≤ 3 → 0xFC < o.toNat → transact (.pokeInstruction b o op pa od) s = .next (.hostError .outOfRange, s)) ∧
    (b.toNat ≤ 3 → o.toNat ≤ 0xFC → ∃ t, transact (.pokeInstruction b o op pa od) s = .next (.ok, t) ∧
      t = { s with rom := t.rom } ∧
      ∀ (k : Fin 4) (p : Offset), t.romRead k p =
        if k.val ≠ b.toNat then s.romRead k p
        else if p.val = o.toNat then op
        else if p.val = o.toNat + 1 then pa
        else if p.val = o.toNat + 2 then od
        else if p.val = o.toNat + 3 then 0x00
        else s.romRead k p)

/-- From R214 (with the spec's decision D24): `readRom` returns the byte and `writeRom` writes that byte alone, by explicit bank;
a bank above 3 is rejected, and so is the offset 0xFF. The fourth clause is the model's choice (log entry 6, DESIGN CHOICE):
R214 states no order of the two checks, and where both fail the call is rejected with one of the two kinds. -/
def Obligations.RomIsReadAndWrittenByBankAndOffset : Prop :=
  ∀ (b o v : Byte) (s : State),
    (∀ (k : Fin 4) (a : Offset), k.val = b.toNat → a.val = o.toNat →
      transact (.readRom b o) s = .next (.byte (s.romRead k a), s) ∧
      ∃ t, transact (.writeRom b o v) s = .next (.ok, t) ∧ t = { s with rom := t.rom } ∧
        ∀ (j : Fin 4) (p : Offset), t.romRead j p = if j = k ∧ p = a then v else s.romRead j p) ∧
    (3 < b.toNat → o ≠ 0xFF → transact (.readRom b o) s = .next (.hostError .invalidBank, s) ∧
      transact (.writeRom b o v) s = .next (.hostError .invalidBank, s)) ∧
    (b.toNat ≤ 3 → o = 0xFF → transact (.readRom b o) s = .next (.hostError .outOfRange, s) ∧
      transact (.writeRom b o v) s = .next (.hostError .outOfRange, s)) ∧
    (3 < b.toNat → o = 0xFF →
      (∃ e, e ≠ .invalidRegister ∧ transact (.readRom b o) s = .next (.hostError e, s)) ∧
      ∃ e, e ≠ .invalidRegister ∧ transact (.writeRom b o v) s = .next (.hostError e, s))

/-- R215 (with the spec's decision D2): `readData` returns the RAM byte and `pokeData` writes that byte alone, changing neither
`depth` nor `ptr`; both reject the offset 0xFF. -/
def Obligations.PokeDataWritesOneRamByte : Prop :=
  ∀ (o v : Byte) (s : State),
    (∀ a : Offset, a.val = o.toNat →
      transact (.readData o) s = .next (.byte (s.ramRead a), s) ∧
      ∃ t, transact (.pokeData o v) s = .next (.ok, t) ∧ t = { s with ram := t.ram } ∧
        ∀ p, t.ramRead p = if p = a then v else s.ramRead p) ∧
    (o = 0xFF → transact (.readData o) s = .next (.hostError .outOfRange, s) ∧
      transact (.pokeData o v) s = .next (.hostError .outOfRange, s))

/-- R221 (with the spec's decision D24): `readVram` returns the byte and `writeVram` writes that byte alone; both reject the
offset 0xFF. -/
def Obligations.VramIsReadAndWrittenByTheHost : Prop :=
  ∀ (o v : Byte) (s : State),
    (∀ a : Offset, a.val = o.toNat →
      transact (.readVram o) s = .next (.byte (s.vramRead a), s) ∧
      ∃ t, transact (.writeVram o v) s = .next (.ok, t) ∧ t = { s with vram := t.vram } ∧
        ∀ p, t.vramRead p = if p = a then v else s.vramRead p) ∧
    (o = 0xFF → transact (.readVram o) s = .next (.hostError .outOfRange, s) ∧
      transact (.writeVram o v) s = .next (.hostError .outOfRange, s))

/-- R216 and R217 (with the spec's decision D12): `setDataPointer(v)` accepts every value; `setRegister(id, v)` writes the one
register, and rejects an id above 3. -/
def Obligations.HostSetsPointerAndRegisters : Prop :=
  ∀ (id v : Byte) (s : State),
    transact (.setDataPointer v) s = .next (.done, { s with ptr := v }) ∧
    (∀ r : Reg, id.toNat = r.id → ∃ t, transact (.setRegister id v) s = .next (.ok, t) ∧ t = { s with regs := t.regs } ∧
      ∀ q, t.reg q = if q = r then v else s.reg q) ∧
    (3 < id.toNat → transact (.setRegister id v) s = .next (.hostError .invalidRegister, s))

/-- R218: `snapshot()` returns the active bank, the counter, the pointer, the four registers, the depth and the fifteen stack
slots, and changes nothing. -/
def Obligations.SnapshotShowsTheState : Prop :=
  ∀ s : State, ∃ r, transact .snapshot s = .next (.record r, s) ∧
    r.activeBankIndex = s.bank ∧ r.programCounter = s.pc ∧ r.dataPointer = s.ptr ∧ r.stackDepth = s.depth ∧
    (∀ q : Reg, r.registers[q.id]? = some (s.reg q)) ∧
    ∀ (k : Fin 15) (o : Offset), o.val = 0xF0 + k.val → r.stackContents[k] = s.ramRead o

/-- R219 and R220 (with the spec's decision D13): a load writes the whole of its bank, from the image or with zeros, and nothing
else; a bank above 3 is rejected; `loadAllBanks` loads the four banks. -/
def Obligations.LoadWritesWholeBanks : Prop :=
  ∀ (b : Byte) (img : Option Image) (imgs : Option Images) (s : State),
    (3 < b.toNat → transact (.loadProgramBank b img) s = .next (.hostError .invalidBank, s)) ∧
    (∀ k : Fin 4, k.val = b.toNat → ∃ t, transact (.loadProgramBank b img) s = .next (.ok, t) ∧
      t = { s with rom := t.rom } ∧
      ∀ (j : Fin 4) (o : Offset), t.romRead j o =
        if j = k then (match img with | none => 0x00 | some bytes => bytes[o]) else s.romRead j o) ∧
    ∃ t, transact (.loadAllBanks imgs) s = .next (.ok, t) ∧ t = { s with rom := t.rom } ∧
      ∀ (j : Fin 4) (o : Offset), t.romRead j o = imageByte imgs j o

/-- R222 (with the spec's decision D23): a transaction that returns HOST_ERROR changes no state. -/
def Obligations.HostErrorsChangeNothing : Prop :=
  ∀ (x : Transaction) (s t : State) (k : HostError), transact x s = .next (.hostError k, t) → t = s

/-- R224: the read transactions, any number of them in any order, leave the state unchanged. -/
def Obligations.ReadTransactionsChangeNothing : Prop :=
  ∀ (xs : List Transaction) (s t : State) (as : List Response),
    (∀ x ∈ xs, x = .isPaused ∨ x = .snapshot ∨ (∃ b o, x = .readRom b o) ∨ (∃ o, x = .readData o) ∨ ∃ o, x = .readVram o) →
    runTransactions xs s = .next (as, t) → t = s

/-- R75, the spec's own inference from R62 and R72: a poke at the counter in the active bank is what the next step of a Running
engine executes. -/
def Obligations.NextStepRunsThePokedInstruction : Prop :=
  ∀ (b op pa od : Byte) (s : State), s.paused = false → s.pc.toNat ≤ 0xFC → b.toNat = s.bank.val →
    ∃ t, transact (.pokeInstruction b s.pc op pa od) s = .next (.ok, t) ∧ step t = exec (decode op pa od) t
end

