-- ==== Sys2Proof/Laws/Decode.lean ====
section
/-! SUPPORT. The decoder, case by case, and the opcode table's word. -/

namespace Sys2Proof

/-- The cases of the decoder: one for each opcode that reads a field or stands alone, and the unrecognized opcodes, which
read no field. -/
theorem decode_cases (op : Byte) :
    (op = 0x00 ∧ ∀ pa od, decode op pa od = .nop) ∨
    (op = 0x01 ∧ ∀ pa od, decode op pa od = .jump od) ∨
    (op = 0x02 ∧ ∀ pa od, decode op pa od = .ret) ∨
    (op = 0x03 ∧ ∀ pa od, decode op pa od = .add) ∨
    (op = 0x04 ∧ ∀ pa od, decode op pa od = .setRamPointer od) ∨
    (op = 0x05 ∧ ∀ pa od, decode op pa od = .ramSet od) ∨
    (op = 0x06 ∧ ∀ pa od, decode op pa od = .ld pa) ∨
    (op = 0x07 ∧ ∀ pa od, decode op pa od = .nextRomBank) ∨
    (op = 0x08 ∧ ∀ pa od, decode op pa od = .endMarker) ∨
    (op = 0x09 ∧ ∀ pa od, decode op pa od = .unrecognized09) ∨
    (opcodeInRow 0x0A 0x0B op ∧ ∀ pa od, decode op pa od = .unrecognized0A op) ∨
    (opcodeInRow 0x0C 0x0F op ∧ ∀ pa od, decode op pa od = .unrecognized0C op) ∨
    (opcodeInRow 0x10 0x1F op ∧ ∀ pa od, decode op pa od = .unrecognized10 op) ∨
    (opcodeInRow 0x20 0x3F op ∧ ∀ pa od, decode op pa od = .unrecognized20 op) ∨
    (opcodeInRow 0x40 0x7F op ∧ ∀ pa od, decode op pa od = .unrecognized40 op) ∨
    (opcodeInRow 0x80 0xFF op ∧ ∀ pa od, decode op pa od = .unrecognized80 op) := by
  have generic : ∀ op : Byte, 0x09 < op.toNat → ∀ pa od, decode op pa od = decode op 0 0 := by
    intro op h pa od
    have e : ∀ n : Byte, n.toNat ≤ 0x09 → op ≠ n := fun n hn he => by subst he; omega
    unfold decode
    rw [if_neg (e _ (by decide)), if_neg (e _ (by decide)), if_neg (e _ (by decide)), if_neg (e _ (by decide)),
      if_neg (e _ (by decide)), if_neg (e _ (by decide)), if_neg (e _ (by decide)), if_neg (e _ (by decide)),
      if_neg (e _ (by decide)), if_neg (e _ (by decide)), if_neg (e _ (by decide)), if_neg (e _ (by decide)),
      if_neg (e _ (by decide)), if_neg (e _ (by decide)), if_neg (e _ (by decide)), if_neg (e _ (by decide)),
      if_neg (e _ (by decide))]
  have rows : ∀ op : Byte, 0x09 < op.toNat →
      (opcodeInRow 0x0A 0x0B op ∧ decode op 0 0 = .unrecognized0A op) ∨
      (opcodeInRow 0x0C 0x0F op ∧ decode op 0 0 = .unrecognized0C op) ∨
      (opcodeInRow 0x10 0x1F op ∧ decode op 0 0 = .unrecognized10 op) ∨
      (opcodeInRow 0x20 0x3F op ∧ decode op 0 0 = .unrecognized20 op) ∨
      (opcodeInRow 0x40 0x7F op ∧ decode op 0 0 = .unrecognized40 op) ∨
      (opcodeInRow 0x80 0xFF op ∧ decode op 0 0 = .unrecognized80 op) := by decide
  have low : ∀ op : Byte, 0x09 < op.toNat ∨ op = 0x00 ∨ op = 0x01 ∨ op = 0x02 ∨ op = 0x03 ∨ op = 0x04 ∨ op = 0x05 ∨
      op = 0x06 ∨ op = 0x07 ∨ op = 0x08 ∨ op = 0x09 := by decide
  rcases low op with h | rfl | rfl | rfl | rfl | rfl | rfl | rfl | rfl | rfl | rfl
  · have g := generic op h
    rcases rows op h with ⟨h1, h2⟩ | ⟨h1, h2⟩ | ⟨h1, h2⟩ | ⟨h1, h2⟩ | ⟨h1, h2⟩ | ⟨h1, h2⟩ <;>
      simp only [h2] at g
    · exact .inr (.inr (.inr (.inr (.inr (.inr (.inr (.inr (.inr (.inr (.inl ⟨h1, g⟩))))))))))
    · exact .inr (.inr (.inr (.inr (.inr (.inr (.inr (.inr (.inr (.inr (.inr (.inl ⟨h1, g⟩)))))))))))
    · exact .inr (.inr (.inr (.inr (.inr (.inr (.inr (.inr (.inr (.inr (.inr (.inr (.inl ⟨h1, g⟩))))))))))))
    · exact .inr (.inr (.inr (.inr (.inr (.inr (.inr (.inr (.inr (.inr (.inr (.inr (.inr (.inl ⟨h1, g⟩)))))))))))))
    · exact .inr (.inr (.inr (.inr (.inr (.inr (.inr (.inr (.inr (.inr (.inr (.inr (.inr (.inr (.inl ⟨h1, g⟩))))))))))))))
    · exact .inr (.inr (.inr (.inr (.inr (.inr (.inr (.inr (.inr (.inr (.inr (.inr (.inr (.inr (.inr ⟨h1, g⟩))))))))))))))
  · exact .inl ⟨rfl, fun _ _ => rfl⟩
  · exact .inr (.inl ⟨rfl, fun _ _ => rfl⟩)
  · exact .inr (.inr (.inl ⟨rfl, fun _ _ => rfl⟩))
  · exact .inr (.inr (.inr (.inl ⟨rfl, fun _ _ => rfl⟩)))
  · exact .inr (.inr (.inr (.inr (.inl ⟨rfl, fun _ _ => rfl⟩))))
  · exact .inr (.inr (.inr (.inr (.inr (.inl ⟨rfl, fun _ _ => rfl⟩)))))
  · exact .inr (.inr (.inr (.inr (.inr (.inr (.inl ⟨rfl, fun _ _ => rfl⟩))))))
  · exact .inr (.inr (.inr (.inr (.inr (.inr (.inr (.inl ⟨rfl, fun _ _ => rfl⟩)))))))
  · exact .inr (.inr (.inr (.inr (.inr (.inr (.inr (.inr (.inl ⟨rfl, fun _ _ => rfl⟩))))))))
  · exact .inr (.inr (.inr (.inr (.inr (.inr (.inr (.inr (.inr (.inl ⟨rfl, fun _ _ => rfl⟩)))))))))

/-- The opcode in the top byte of a slot's table word. -/
theorem Slot.toWord_toNat (s : Slot) : s.toWord.toNat =
    s.opcode.toNat * 2 ^ 24 + s.parameter.toNat * 2 ^ 16 + s.operand.toNat * 2 ^ 8 + s.unused.toNat := by
  have h1 := s.parameter.isLt
  have h2 := s.operand.isLt
  have h3 := s.unused.isLt
  simp only [Slot.toWord, BitVec.toNat_append]
  rw [← Nat.shiftLeft_add_eq_or_of_lt h1, ← Nat.shiftLeft_add_eq_or_of_lt h2, ← Nat.shiftLeft_add_eq_or_of_lt h3]
  simp only [Nat.shiftLeft_eq]
  omega

/-- A slot is read back from its table word. -/
theorem Slot.ofWord_toWord (s : Slot) : Slot.ofWord s.toWord = s := by
  obtain ⟨a, b, c, d⟩ := s
  simp only [Slot.ofWord, Slot.toWord, Slot.mk.injEq]
  refine ⟨?_, ?_, ?_, ?_⟩ <;> ext i hi <;> simp [BitVec.getElem_extractLsb'] <;> grind

end Sys2Proof
end

