-- ==== Sys2Proof/Laws/Memory.lean ====
section
/-! SUPPORT. What a read gives after each memory operation, and that every operation keeps the canonical form. -/

namespace Sys2Proof.Machine

variable (m : Memory) (a b : Nat) (v : Byte)

@[simp] theorem Memory.read_nil : Memory.read [] a = Memory.unlisted := rfl

theorem Memory.read_erase_same : (m.erase a).read a = Memory.unlisted := by
  induction m with
  | nil => rfl
  | cons c m ih =>
    obtain ⟨k, w⟩ := c
    by_cases h : k = a <;> simp [Memory.erase, Memory.read, h, ih]

theorem Memory.read_erase_other (h : b ≠ a) : (m.erase a).read b = m.read b := by
  induction m with
  | nil => rfl
  | cons c m ih =>
    obtain ⟨k, w⟩ := c
    by_cases hk : k = a
    · subst hk; simp [Memory.erase, Memory.read, ih, Ne.symm h]
    · simp [Memory.erase, Memory.read, hk, ih]

theorem Memory.read_insert_same (h : ∀ c ∈ m, c.1 ≠ a) : (Memory.insert a v m).read a = v := by
  induction m with
  | nil => simp [Memory.insert, Memory.read]
  | cons c m ih =>
    obtain ⟨k, w⟩ := c
    have hk : k ≠ a := h (k, w) (by simp)
    by_cases hlt : a < k
    · simp [Memory.insert, Memory.read, hlt]
    · simp [Memory.insert, Memory.read, hlt, hk, ih (fun c hc => h c (by simp [hc]))]

theorem Memory.read_insert_other (h : b ≠ a) : (Memory.insert a v m).read b = m.read b := by
  induction m with
  | nil => simp [Memory.insert, Memory.read, Ne.symm h]
  | cons c m ih =>
    obtain ⟨k, w⟩ := c
    by_cases hlt : a < k
    · simp [Memory.insert, Memory.read, hlt, Ne.symm h]
    · simp [Memory.insert, Memory.read, hlt, ih]

theorem Memory.mem_erase {m : Memory} {a : Nat} {c : Host.Cell} : c ∈ m.erase a ↔ c ∈ m ∧ c.1 ≠ a := by
  induction m with
  | nil => simp [Memory.erase]
  | cons d m ih =>
    by_cases hd : d.1 = a
    · simp only [Memory.erase, hd, ↓reduceIte, ih, List.mem_cons]
      constructor
      · rintro ⟨h1, h2⟩; exact ⟨.inr h1, h2⟩
      · rintro ⟨rfl | h1, h2⟩
        · exact absurd hd h2
        · exact ⟨h1, h2⟩
    · simp only [Memory.erase, hd, ↓reduceIte, List.mem_cons, ih]
      constructor
      · rintro (rfl | ⟨h1, h2⟩)
        · exact ⟨.inl rfl, hd⟩
        · exact ⟨.inr h1, h2⟩
      · rintro ⟨rfl | h1, h2⟩
        · exact .inl rfl
        · exact .inr ⟨h1, h2⟩

theorem Memory.mem_insert {m : Memory} {a : Nat} {v : Byte} {c : Host.Cell} :
    c ∈ Memory.insert a v m ↔ c = (a, v) ∨ c ∈ m := by
  induction m with
  | nil => simp [Memory.insert]
  | cons d m ih =>
    by_cases hlt : a < d.1
    · simp [Memory.insert, hlt]
    · simp only [Memory.insert, hlt, ↓reduceIte, List.mem_cons, ih]
      tauto

/-- A read of the byte just written gives the value written. -/
@[simp] theorem Memory.read_write_same : (m.write a v).read a = v := by
  unfold Memory.write
  split
  · rename_i h; rw [Memory.read_erase_same, h]
  · exact Memory.read_insert_same _ _ _ fun c hc => (Memory.mem_erase.1 hc).2

/-- A write leaves every other byte alone. -/
theorem Memory.read_write_other (h : b ≠ a) : (m.write a v).read b = m.read b := by
  unfold Memory.write
  split
  · exact Memory.read_erase_other _ _ _ h
  · rw [Memory.read_insert_other _ _ _ _ h, Memory.read_erase_other _ _ _ h]

/-- A read after a write, in one equation. -/
theorem Memory.read_write : (m.write a v).read b = if b = a then v else m.read b := by
  split
  · subst_vars; simp
  · exact Memory.read_write_other _ _ _ _ ‹_›

theorem Memory.wf_nil : Memory.wf [] := by simp [Memory.wf]

theorem Memory.wf_erase {m : Memory} (a : Nat) (h : m.wf) : (m.erase a).wf := by
  refine ⟨?_, fun c hc => h.2 c (Memory.mem_erase.1 hc).1⟩
  have hp := h.1
  clear h
  induction m with
  | nil => simp [Memory.erase]
  | cons c m ih =>
    obtain ⟨h1, h2⟩ := List.pairwise_cons.1 hp
    by_cases hc : c.1 = a
    · simpa [Memory.erase, hc] using ih h2
    · simp only [Memory.erase, hc, ↓reduceIte, List.pairwise_cons]
      exact ⟨fun d hd => h1 d (Memory.mem_erase.1 hd).1, ih h2⟩

theorem Memory.wf_insert {m : Memory} {a : Nat} {v : Byte} (h : m.wf) (ha : a < 255) (hv : v ≠ Memory.unlisted)
    (hm : ∀ c ∈ m, c.1 ≠ a) : (Memory.insert a v m).wf := by
  refine ⟨?_, ?_⟩
  · have hp := h.1
    clear h
    induction m with
    | nil => simp [Memory.insert]
    | cons c m ih =>
      obtain ⟨h1, h2⟩ := List.pairwise_cons.1 hp
      by_cases hlt : a < c.1
      · simp only [Memory.insert, hlt, ↓reduceIte, List.pairwise_cons]
        refine ⟨fun d hd => ?_, h1, h2⟩
        rcases List.mem_cons.1 hd with rfl | hd
        · exact hlt
        · exact Nat.lt_trans hlt (h1 d hd)
      · simp only [Memory.insert, hlt, ↓reduceIte, List.pairwise_cons]
        refine ⟨fun d hd => ?_, ih (fun d hd => hm d (by simp [hd])) h2⟩
        have hca := hm c (by simp)
        rcases Memory.mem_insert.1 hd with rfl | hd
        · show c.1 < a
          omega
        · exact h1 d hd
  · intro c hc
    rcases Memory.mem_insert.1 hc with rfl | hc
    · exact ⟨ha, hv⟩
    · exact h.2 c hc

/-- A write inside the array keeps the canonical form. -/
theorem Memory.wf_write {m : Memory} {a : Nat} (v : Byte) (h : m.wf) (ha : a < 255) : (m.write a v).wf := by
  unfold Memory.write
  split
  · exact Memory.wf_erase a h
  · exact Memory.wf_insert (Memory.wf_erase a h) ha ‹_› fun c hc => (Memory.mem_erase.1 hc).2

theorem Memory.mem_ofBytes {bs : List Byte} {a : Nat} {c : Host.Cell} (h : c ∈ Memory.ofBytes a bs) :
    a ≤ c.1 ∧ c.1 < a + bs.length ∧ c.2 ≠ Memory.unlisted := by
  induction bs generalizing a with
  | nil => simp [Memory.ofBytes] at h
  | cons w bs ih =>
    simp only [Memory.ofBytes] at h
    split at h
    · obtain ⟨h1, h2, h3⟩ := ih h
      exact ⟨by omega, by simp only [List.length_cons]; omega, h3⟩
    · rcases List.mem_cons.1 h with rfl | h
      · exact ⟨by simp, by simp, ‹_›⟩
      · obtain ⟨h1, h2, h3⟩ := ih h
        exact ⟨by omega, by simp only [List.length_cons]; omega, h3⟩

/-- A loaded image is in canonical form when it fits the array. -/
theorem Memory.wf_ofBytes (bs : List Byte) (a : Nat) (h : a + bs.length ≤ 255) : (Memory.ofBytes a bs).wf := by
  refine ⟨?_, fun c hc => ⟨by have := Memory.mem_ofBytes hc; omega, (Memory.mem_ofBytes hc).2.2⟩⟩
  clear h
  induction bs generalizing a with
  | nil => simp [Memory.ofBytes]
  | cons w bs ih =>
    simp only [Memory.ofBytes]
    split
    · exact ih _
    · simp only [List.pairwise_cons]
      exact ⟨fun d hd => by have := Memory.mem_ofBytes hd; show a < d.1; omega, ih _⟩

theorem Memory.read_of_forall_ne {m : Memory} {a : Nat} (h : ∀ c ∈ m, c.1 ≠ a) : m.read a = Memory.unlisted := by
  induction m with
  | nil => rfl
  | cons c m ih =>
    obtain ⟨k, w⟩ := c
    have hk : k ≠ a := h (k, w) (by simp)
    simp [Memory.read, hk, ih fun c hc => h c (by simp [hc])]

/-- A loaded image reads back byte by byte. -/
theorem Memory.read_ofBytes (bs : List Byte) (a i : Nat) (h : i < bs.length) :
    (Memory.ofBytes a bs).read (a + i) = bs[i] := by
  induction bs generalizing a i with
  | nil => simp at h
  | cons w bs ih =>
    simp only [Memory.ofBytes]
    cases i with
    | zero =>
      split
      · rw [Memory.read_of_forall_ne]
        · simp [*]
        · intro c hc; have := Memory.mem_ofBytes hc; omega
      · simp [Memory.read]
    | succ i =>
      have hi : i < bs.length := by simpa using h
      have he : a + (i + 1) = a + 1 + i := by omega
      split
      · rw [he, ih _ _ hi]; simp
      · have hne : a ≠ a + (i + 1) := by omega
        rw [Memory.read, if_neg hne, he, ih _ _ hi]; simp

/-- In a canonical memory an offset reads as a listed byte exactly when its pair is listed. -/
theorem Memory.mem_iff_read {m : Memory} (h : m.wf) (hv : v ≠ Memory.unlisted) : (a, v) ∈ m ↔ m.read a = v := by
  induction m with
  | nil => simp [Ne.symm hv]
  | cons c m ih =>
    obtain ⟨k, w⟩ := c
    obtain ⟨h1, h2⟩ := List.pairwise_cons.1 h.1
    have hw : Memory.wf m := ⟨h2, fun c hc => h.2 c (by simp [hc])⟩
    by_cases hk : k = a
    · subst hk
      have hn : (k, v) ∉ m := fun hmem => Nat.lt_irrefl k (h1 (k, v) hmem)
      simp [Memory.read, hn, eq_comm (a := v)]
    · simp [Memory.read, hk, ← ih hw, Ne.symm hk]

/-- Canonical memories with the same bytes are the same list. -/
theorem Memory.eq_of_read {m n : Memory} (hm : m.wf) (hn : n.wf) (h : ∀ a < 255, m.read a = n.read a) : m = n := by
  have hmem : ∀ c : Host.Cell, c ∈ m ↔ c ∈ n := by
    rintro ⟨a, v⟩
    constructor
    · intro hc
      obtain ⟨ha, hv⟩ := hm.2 _ hc
      rw [Memory.mem_iff_read a v hn hv, ← h a ha]
      exact (Memory.mem_iff_read a v hm hv).1 hc
    · intro hc
      obtain ⟨ha, hv⟩ := hn.2 _ hc
      rw [Memory.mem_iff_read a v hm hv, h a ha]
      exact (Memory.mem_iff_read a v hn hv).1 hc
  have nodup : ∀ {l : Memory}, l.wf → l.Nodup := fun hl =>
    hl.1.imp fun {c d} hcd hne => by subst hne; exact Nat.lt_irrefl _ hcd
  exact ((List.perm_ext_iff_of_nodup (nodup hm) (nodup hn)).2 hmem).eq_of_pairwise
    (fun c d _ _ hcd hdc => absurd (Nat.lt_trans hcd hdc) (Nat.lt_irrefl _)) hm.1 hn.1

end Sys2Proof.Machine
end

