-- ==== Sys2Proof/Laws/State.lean ====
section
/-! SUPPORT. One lemma per field per named update of the state: what the update writes, and that it keeps the rest. -/

namespace Sys2Proof.Machine.State

variable (s : State)

@[simp] theorem setReg_regs (r : Reg) (v : Byte) : (s.setReg r v).regs = s.regs.set r v := rfl
@[simp] theorem setReg_pc (r : Reg) (v : Byte) : (s.setReg r v).pc = s.pc := rfl
@[simp] theorem setReg_paused (r : Reg) (v : Byte) : (s.setReg r v).paused = s.paused := rfl
@[simp] theorem setReg_bank (r : Reg) (v : Byte) : (s.setReg r v).bank = s.bank := rfl
@[simp] theorem setReg_ptr (r : Reg) (v : Byte) : (s.setReg r v).ptr = s.ptr := rfl
@[simp] theorem setReg_depth (r : Reg) (v : Byte) : (s.setReg r v).depth = s.depth := rfl
@[simp] theorem setReg_rom (r : Reg) (v : Byte) : (s.setReg r v).rom = s.rom := rfl
@[simp] theorem setReg_ram (r : Reg) (v : Byte) : (s.setReg r v).ram = s.ram := rfl
@[simp] theorem setReg_vram (r : Reg) (v : Byte) : (s.setReg r v).vram = s.vram := rfl
@[simp] theorem setReg_latch (r : Reg) (v : Byte) : (s.setReg r v).latch = s.latch := rfl
@[simp] theorem setReg_alu (r : Reg) (v : Byte) : (s.setReg r v).alu = s.alu := rfl
@[simp] theorem setReg_diagnostics (r : Reg) (v : Byte) : (s.setReg r v).diagnostics = s.diagnostics := rfl

@[simp] theorem ramWrite_regs (o : Offset) (v : Byte) : (s.ramWrite o v).regs = s.regs := rfl
@[simp] theorem ramWrite_pc (o : Offset) (v : Byte) : (s.ramWrite o v).pc = s.pc := rfl
@[simp] theorem ramWrite_paused (o : Offset) (v : Byte) : (s.ramWrite o v).paused = s.paused := rfl
@[simp] theorem ramWrite_bank (o : Offset) (v : Byte) : (s.ramWrite o v).bank = s.bank := rfl
@[simp] theorem ramWrite_ptr (o : Offset) (v : Byte) : (s.ramWrite o v).ptr = s.ptr := rfl
@[simp] theorem ramWrite_depth (o : Offset) (v : Byte) : (s.ramWrite o v).depth = s.depth := rfl
@[simp] theorem ramWrite_rom (o : Offset) (v : Byte) : (s.ramWrite o v).rom = s.rom := rfl
@[simp] theorem ramWrite_ram (o : Offset) (v : Byte) : (s.ramWrite o v).ram = s.ram.write o.val v := rfl
@[simp] theorem ramWrite_vram (o : Offset) (v : Byte) : (s.ramWrite o v).vram = s.vram := rfl
@[simp] theorem ramWrite_latch (o : Offset) (v : Byte) : (s.ramWrite o v).latch = s.latch := rfl
@[simp] theorem ramWrite_alu (o : Offset) (v : Byte) : (s.ramWrite o v).alu = s.alu := rfl
@[simp] theorem ramWrite_diagnostics (o : Offset) (v : Byte) : (s.ramWrite o v).diagnostics = s.diagnostics := rfl

@[simp] theorem romWrite_regs (b : Fin 4) (o : Offset) (v : Byte) : (s.romWrite b o v).regs = s.regs := rfl
@[simp] theorem romWrite_pc (b : Fin 4) (o : Offset) (v : Byte) : (s.romWrite b o v).pc = s.pc := rfl
@[simp] theorem romWrite_paused (b : Fin 4) (o : Offset) (v : Byte) : (s.romWrite b o v).paused = s.paused := rfl
@[simp] theorem romWrite_bank (b : Fin 4) (o : Offset) (v : Byte) : (s.romWrite b o v).bank = s.bank := rfl
@[simp] theorem romWrite_ptr (b : Fin 4) (o : Offset) (v : Byte) : (s.romWrite b o v).ptr = s.ptr := rfl
@[simp] theorem romWrite_depth (b : Fin 4) (o : Offset) (v : Byte) : (s.romWrite b o v).depth = s.depth := rfl
@[simp] theorem romWrite_rom (b : Fin 4) (o : Offset) (v : Byte) : (s.romWrite b o v).rom = s.rom.set b.val (s.rom[b].write o.val v) b.isLt := rfl
@[simp] theorem romWrite_ram (b : Fin 4) (o : Offset) (v : Byte) : (s.romWrite b o v).ram = s.ram := rfl
@[simp] theorem romWrite_vram (b : Fin 4) (o : Offset) (v : Byte) : (s.romWrite b o v).vram = s.vram := rfl
@[simp] theorem romWrite_latch (b : Fin 4) (o : Offset) (v : Byte) : (s.romWrite b o v).latch = s.latch := rfl
@[simp] theorem romWrite_alu (b : Fin 4) (o : Offset) (v : Byte) : (s.romWrite b o v).alu = s.alu := rfl
@[simp] theorem romWrite_diagnostics (b : Fin 4) (o : Offset) (v : Byte) : (s.romWrite b o v).diagnostics = s.diagnostics := rfl

@[simp] theorem vramWrite_regs (o : Offset) (v : Byte) : (s.vramWrite o v).regs = s.regs := rfl
@[simp] theorem vramWrite_pc (o : Offset) (v : Byte) : (s.vramWrite o v).pc = s.pc := rfl
@[simp] theorem vramWrite_paused (o : Offset) (v : Byte) : (s.vramWrite o v).paused = s.paused := rfl
@[simp] theorem vramWrite_bank (o : Offset) (v : Byte) : (s.vramWrite o v).bank = s.bank := rfl
@[simp] theorem vramWrite_ptr (o : Offset) (v : Byte) : (s.vramWrite o v).ptr = s.ptr := rfl
@[simp] theorem vramWrite_depth (o : Offset) (v : Byte) : (s.vramWrite o v).depth = s.depth := rfl
@[simp] theorem vramWrite_rom (o : Offset) (v : Byte) : (s.vramWrite o v).rom = s.rom := rfl
@[simp] theorem vramWrite_ram (o : Offset) (v : Byte) : (s.vramWrite o v).ram = s.ram := rfl
@[simp] theorem vramWrite_vram (o : Offset) (v : Byte) : (s.vramWrite o v).vram = s.vram.write o.val v := rfl
@[simp] theorem vramWrite_latch (o : Offset) (v : Byte) : (s.vramWrite o v).latch = s.latch := rfl
@[simp] theorem vramWrite_alu (o : Offset) (v : Byte) : (s.vramWrite o v).alu = s.alu := rfl
@[simp] theorem vramWrite_diagnostics (o : Offset) (v : Byte) : (s.vramWrite o v).diagnostics = s.diagnostics := rfl

@[simp] theorem raiseDiag_regs (k : DiagKind) : (s.raiseDiag k).regs = s.regs := rfl
@[simp] theorem raiseDiag_pc (k : DiagKind) : (s.raiseDiag k).pc = s.pc := rfl
@[simp] theorem raiseDiag_paused (k : DiagKind) : (s.raiseDiag k).paused = s.paused := rfl
@[simp] theorem raiseDiag_bank (k : DiagKind) : (s.raiseDiag k).bank = s.bank := rfl
@[simp] theorem raiseDiag_ptr (k : DiagKind) : (s.raiseDiag k).ptr = s.ptr := rfl
@[simp] theorem raiseDiag_depth (k : DiagKind) : (s.raiseDiag k).depth = s.depth := rfl
@[simp] theorem raiseDiag_rom (k : DiagKind) : (s.raiseDiag k).rom = s.rom := rfl
@[simp] theorem raiseDiag_ram (k : DiagKind) : (s.raiseDiag k).ram = s.ram := rfl
@[simp] theorem raiseDiag_vram (k : DiagKind) : (s.raiseDiag k).vram = s.vram := rfl
@[simp] theorem raiseDiag_latch (k : DiagKind) : (s.raiseDiag k).latch = s.latch := rfl
@[simp] theorem raiseDiag_alu (k : DiagKind) : (s.raiseDiag k).alu = s.alu := rfl
@[simp] theorem raiseDiag_diagnostics (k : DiagKind) : (s.raiseDiag k).diagnostics = s.diagnostics ++ [⟨k, s.pc, s.bank⟩] := rfl

@[simp] theorem loadLatch_regs (l : Latch) : (s.loadLatch l).regs = s.regs := rfl
@[simp] theorem loadLatch_pc (l : Latch) : (s.loadLatch l).pc = s.pc := rfl
@[simp] theorem loadLatch_paused (l : Latch) : (s.loadLatch l).paused = s.paused := rfl
@[simp] theorem loadLatch_bank (l : Latch) : (s.loadLatch l).bank = s.bank := rfl
@[simp] theorem loadLatch_ptr (l : Latch) : (s.loadLatch l).ptr = s.ptr := rfl
@[simp] theorem loadLatch_depth (l : Latch) : (s.loadLatch l).depth = s.depth := rfl
@[simp] theorem loadLatch_rom (l : Latch) : (s.loadLatch l).rom = s.rom := rfl
@[simp] theorem loadLatch_ram (l : Latch) : (s.loadLatch l).ram = s.ram := rfl
@[simp] theorem loadLatch_vram (l : Latch) : (s.loadLatch l).vram = s.vram := rfl
@[simp] theorem loadLatch_latch (l : Latch) : (s.loadLatch l).latch = l := rfl
@[simp] theorem loadLatch_alu (l : Latch) : (s.loadLatch l).alu = s.alu := rfl
@[simp] theorem loadLatch_diagnostics (l : Latch) : (s.loadLatch l).diagnostics = s.diagnostics := rfl

end Sys2Proof.Machine.State
end

