-- ==== Sys2Proof/Laws/Ops.lean ====
section
/-! SUPPORT. For each shared operation, what it answers, as a lemma to cite instead of unfolding it. -/

namespace Sys2Proof.Machine

/-! ## Operands -/

/-- A byte names the offset with its value. -/
theorem offsetOf_eq_some {a : Byte} {o : Offset} : offsetOf a = some o ↔ o.val = a.toNat := by
  unfold offsetOf
  split
  · rw [Option.some.injEq, Fin.ext_iff]; exact eq_comm
  · have := o.isLt
    simp only [reduceCtorEq, false_iff]; omega

/-- Only 0xFF names no offset. -/
theorem offsetOf_eq_none {a : Byte} : offsetOf a = none ↔ a = 0xFF := by
  have h : a = 0xFF ↔ a.toNat = 255 := by rw [← BitVec.toNat_inj]; rfl
  have := a.isLt
  unfold offsetOf
  split <;> simp only [reduceCtorEq, false_iff, true_iff, h] <;> omega

/-- The effective address is the offset with the pointer's value. -/
theorem dataAddress_eq_some {s : State} {o : Offset} : dataAddress s = some o ↔ o.val = s.ptr.toNat := offsetOf_eq_some

/-- There is no effective address exactly with `ptr = 0xFF`. -/
theorem dataAddress_eq_none {s : State} : dataAddress s = none ↔ s.ptr = 0xFF := offsetOf_eq_none

/-- A byte names the bank with its value. -/
theorem bankOf_eq_some {b : Byte} {k : Fin 4} : bankOf b = some k ↔ k.val = b.toNat := by
  unfold bankOf
  split
  · rw [Option.some.injEq, Fin.ext_iff]; exact eq_comm
  · have := k.isLt
    simp only [reduceCtorEq, false_iff]; omega

/-- A byte above 3 names no bank. -/
theorem bankOf_eq_none {b : Byte} : bankOf b = none ↔ 3 < b.toNat := by
  unfold bankOf
  split <;> simp only [reduceCtorEq, false_iff, true_iff] <;> omega

/-- The register a byte names, by cases. -/
theorem registerOfId_cases (id : Byte) :
    (id.toNat = 0 ∧ registerOfId id = some .A) ∨ (id.toNat = 1 ∧ registerOfId id = some .B) ∨
    (id.toNat = 2 ∧ registerOfId id = some .C) ∨ (id.toNat = 3 ∧ registerOfId id = some .D) ∨
    (3 < id.toNat ∧ registerOfId id = none) := by
  have e : ∀ n : Byte, id = n ↔ id.toNat = n.toNat := fun n => BitVec.toNat_inj.symm
  unfold registerOfId
  simp only [e]
  split_ifs <;> (simp_all; try omega)

/-! ## Registers -/

@[simp] theorem RegisterFile.get_set_same (f : RegisterFile) (r : Reg) (v : Byte) : (f.set r v).get r = v := by
  cases r <;> rfl

theorem RegisterFile.get_set_other (f : RegisterFile) {q r : Reg} (v : Byte) (h : q ≠ r) :
    (f.set r v).get q = f.get q := by
  cases q <;> cases r <;> first | rfl | exact absurd rfl h

theorem RegisterFile.get_set (f : RegisterFile) (q r : Reg) (v : Byte) :
    (f.set r v).get q = if q = r then v else f.get q := by
  split
  · subst_vars; simp
  · exact RegisterFile.get_set_other f v ‹_›

/-! ## Memories -/

theorem ramRead_ramWrite (s : State) (o p : Offset) (v : Byte) :
    (s.ramWrite o v).ramRead p = if p = o then v else s.ramRead p := by
  simp only [State.ramRead, State.ramWrite_ram, Memory.read_write, Fin.ext_iff]

theorem vramRead_vramWrite (s : State) (o p : Offset) (v : Byte) :
    (s.vramWrite o v).vramRead p = if p = o then v else s.vramRead p := by
  simp only [State.vramRead, State.vramWrite_vram, Memory.read_write, Fin.ext_iff]

/-- Setting one bank of four, read at any bank. -/
theorem rom_set_get (rom : Vector Memory 4) (b k : Fin 4) (m : Memory) :
    (rom.set b.val m b.isLt)[k] = if k = b then m else rom[k] := by
  simp only [Fin.getElem_fin, Vector.getElem_set, Fin.ext_iff, eq_comm]

theorem romRead_romWrite (s : State) (b k : Fin 4) (o p : Offset) (v : Byte) :
    (s.romWrite b o v).romRead k p = if k = b ∧ p = o then v else s.romRead k p := by
  simp only [State.romRead, State.romWrite_rom, rom_set_get]
  by_cases hk : k = b
  · subst hk; simp [Memory.read_write, Fin.ext_iff]
  · simp [hk]

/-! ## The call stack -/

@[simp] theorem stackSlot_val (k : Fin 15) : (stackSlot k).val = 0xF0 + k.val := rfl

theorem stackSlot_inj {j k : Fin 15} : stackSlot j = stackSlot k ↔ j = k := by
  simp [Fin.ext_iff]

@[simp] theorem topSlot_val (s : State) : (topSlot s).val = s.depth.val - 1 := rfl

/-- A push is refused exactly at depth 14. -/
theorem push_eq_none {a : Byte} {s : State} : push a s = none ↔ s.depth.val = 14 := by
  unfold push
  split <;> rename_i h <;> simpa using h

/-- What a push that is not refused does. -/
theorem push_eq_some {a : Byte} {s t : State} :
    push a s = some t ↔ s.depth.val ≠ 14 ∧
      ∃ d : Fin 15, d.val = s.depth.val + 1 ∧ t = { s.ramWrite (stackSlot s.depth) a with depth := d } := by
  unfold push
  split
  · simp_all
  · rename_i h
    simp only [Config.depthLimit] at h
    simp only [Option.some.injEq]
    constructor
    · rintro rfl; exact ⟨h, _, rfl, rfl⟩
    · rintro ⟨-, d, hd, rfl⟩
      congr 1
      exact Fin.ext hd.symm

/-- A pop is refused exactly at depth 0. -/
theorem pop_eq_none {s : State} : pop s = none ↔ s.depth.val = 0 := by
  unfold pop
  split <;> simp_all

/-- What a pop that is not refused does. -/
theorem pop_eq_some {s t : State} {a : Byte} :
    pop s = some (a, t) ↔ s.depth.val ≠ 0 ∧ a = s.ramRead (stackSlot (topSlot s)) ∧
      t = { s.ramWrite (stackSlot (topSlot s)) 0x00 with depth := topSlot s } := by
  unfold pop
  split
  · simp_all
  · rename_i h
    simp only [Option.some.injEq, Prod.mk.injEq, ne_eq, h, not_false_iff, true_and]
    exact ⟨fun ⟨h1, h2⟩ => ⟨h1.symm, h2.symm⟩, fun ⟨h1, h2⟩ => ⟨h1.symm, h2.symm⟩⟩

/-! ## The phases of the cycle -/

/-- A fetch is out of range exactly with `pc` above 0xFC. -/
theorem fetch_eq_none {s : State} : fetch s = none ↔ 0xFC < s.pc.toNat := by
  unfold fetch
  split <;> rename_i h <;> simpa using h

/-- The bytes of a fetch in range. -/
theorem fetch_eq_some {s : State} {l : Latch} :
    fetch s = some l ↔ ∃ o0 o1 o2 : Offset, o0.val = s.pc.toNat ∧ o1.val = s.pc.toNat + 1 ∧ o2.val = s.pc.toNat + 2 ∧
      l = ⟨s.romRead s.bank o0, s.romRead s.bank o1, s.romRead s.bank o2⟩ := by
  unfold fetch
  split
  · rw [Option.some.injEq]
    constructor
    · rintro rfl; exact ⟨_, _, _, rfl, rfl, rfl, rfl⟩
    · rintro ⟨⟨_, _⟩, ⟨_, _⟩, ⟨_, _⟩, rfl, rfl, rfl, rfl⟩; rfl
  · rename_i h
    simp only [Config.lastFetch] at h
    simp only [reduceCtorEq, false_iff, not_exists]
    rintro o0 o1 o2 ⟨-, -, h2, -⟩
    have := o2.isLt
    omega

/-- The end of a cycle answers one state. -/
theorem endCycle_eq (p : Byte) (s : State) :
    endCycle p s = .next { s with latch := Latch.noOp, pc := p + 4 } := rfl

/-- A refusal answers the state before, past the slot, with one more event. -/
theorem refuse_eq (k : DiagKind) (s : State) :
    refuse k s = .next { s with pc := s.pc + 4, latch := Latch.noOp,
                                diagnostics := s.diagnostics ++ [⟨k, s.pc, s.bank⟩] } := rfl

/-- An out-of-range fetch answers the state before, past the slot, with one more event. -/
theorem outOfRangeFetch_eq (s : State) :
    outOfRangeFetch s = .next { s with pc := s.pc + 4,
                                       diagnostics := s.diagnostics ++ [⟨.outOfRange, s.pc, s.bank⟩] } := rfl

end Sys2Proof.Machine
end

