-- ==== Sys2Proof/Laws/Exec.lean ====
section
/-! SUPPORT. What each meaning answers, in terms of the shared operations, and the cases of a step. -/

namespace Sys2Proof.Machine

variable (s : State)

/-- The meaning of an instruction without effect. -/
theorem noOperation_eq : noOperation s = .next { s with latch := Latch.noOp, pc := s.pc + 4 } := rfl

/-- JUMP with room on the stack. -/
theorem execJump_room (target : Byte) (h : s.depth.val ≠ 14) :
    ∃ d : Fin 15, d.val = s.depth.val + 1 ∧ execJump target s =
      .next { s.ramWrite (stackSlot s.depth) s.pc with depth := d, latch := Latch.noOp, pc := target } := by
  obtain ⟨t, ht⟩ := Option.ne_none_iff_exists'.1 (mt push_eq_none.1 h : push s.pc s ≠ none)
  obtain ⟨-, d, hd, rfl⟩ := push_eq_some.1 ht
  refine ⟨d, hd, ?_⟩
  simp only [execJump, ht, endCycle_eq, Config.slotWidth, BitVec.sub_add_cancel]

/-- JUMP at depth 14. -/
theorem execJump_full (target : Byte) (h : s.depth.val = 14) : execJump target s = refuse .stackOverflow s := by
  simp only [execJump, push_eq_none.2 h]

/-- RETURN with a live entry. -/
theorem execReturn_live (h : s.depth.val ≠ 0) : execReturn s =
    .next { s.ramWrite (stackSlot (topSlot s)) 0x00 with
      depth := topSlot s, latch := Latch.noOp, pc := s.ramRead (stackSlot (topSlot s)) + 4 } := by
  have hp : pop s = some (s.ramRead (stackSlot (topSlot s)),
      { s.ramWrite (stackSlot (topSlot s)) 0x00 with depth := topSlot s }) := pop_eq_some.2 ⟨h, rfl, rfl⟩
  simp only [execReturn, hp, endCycle_eq]

/-- RETURN at depth 0. -/
theorem execReturn_empty (h : s.depth.val = 0) : execReturn s = refuse .stackEmpty s := by
  simp only [execReturn, pop_eq_none.2 h]

/-- RAM_SET at an offset that exists. -/
theorem execRamSet_inside (value : Byte) {o : Offset} (h : dataAddress s = some o) :
    execRamSet value s = .next { s.ramWrite o value with latch := Latch.noOp, pc := s.pc + 4 } := by
  simp only [execRamSet, h]; rfl

/-- RAM_SET at 0xFF. -/
theorem execRamSet_outside (value : Byte) (h : dataAddress s = none) :
    execRamSet value s = refuse .outOfRange s := by
  simp only [execRamSet, h]

/-- LD of a valid register at an offset that exists. -/
theorem execLd_inside (id : Byte) {o : Offset} {r : Reg} (h : dataAddress s = some o) (hr : registerOfId id = some r) :
    execLd id s = .next { s.setReg r (s.ramRead o) with latch := Latch.noOp, pc := s.pc + 4 } := by
  simp only [execLd, h, hr]; rfl

/-- LD at 0xFF. -/
theorem execLd_outside (id : Byte) (h : dataAddress s = none) : execLd id s = refuse .outOfRange s := by
  simp only [execLd, h]

/-- LD of no register at an offset that exists. -/
theorem execLd_invalid (id : Byte) {o : Offset} (h : dataAddress s = some o) (hr : registerOfId id = none) :
    execLd id s = refuse .invalidRegister s := by
  simp only [execLd, h, hr]

/-- ADD. -/
theorem execAdd_eq : execAdd s =
    .next { s.setReg .C (s.reg .A + s.reg .B) with
      alu := ⟨s.reg .A, s.reg .B, s.reg .A + s.reg .B⟩, latch := Latch.noOp, pc := s.pc + 4 } := rfl

/-- SET_RAM_POINTER. -/
theorem execSetRamPointer_eq (value : Byte) :
    execSetRamPointer value s = .next { s with ptr := value, latch := Latch.noOp, pc := s.pc + 4 } := rfl

/-- NEXT_ROM_BANK. -/
theorem execNextRomBank_eq :
    execNextRomBank s = .next { s with bank := s.bank + 1, latch := Latch.noOp, pc := s.pc + 4 } := rfl

/-- The instructions without effect: NOP, END and the unrecognized opcodes. -/
def isIdle : Instr → Bool
  | .nop | .endMarker | .unrecognized09 | .unrecognized0A _ | .unrecognized0C _ | .unrecognized10 _
  | .unrecognized20 _ | .unrecognized40 _ | .unrecognized80 _ => true
  | .jump _ | .ret | .add | .setRamPointer _ | .ramSet _ | .ld _ | .nextRomBank => false

/-- Past the slot with the latch cleared. -/
def past : State := { s with latch := Latch.noOp, pc := s.pc + 4 }

@[simp] theorem past_regs : (past s).regs = s.regs := rfl
@[simp] theorem past_pc : (past s).pc = s.pc + 4 := rfl
@[simp] theorem past_paused : (past s).paused = s.paused := rfl
@[simp] theorem past_bank : (past s).bank = s.bank := rfl
@[simp] theorem past_ptr : (past s).ptr = s.ptr := rfl
@[simp] theorem past_depth : (past s).depth = s.depth := rfl
@[simp] theorem past_rom : (past s).rom = s.rom := rfl
@[simp] theorem past_ram : (past s).ram = s.ram := rfl
@[simp] theorem past_vram : (past s).vram = s.vram := rfl
@[simp] theorem past_latch : (past s).latch = Latch.noOp := rfl
@[simp] theorem past_alu : (past s).alu = s.alu := rfl
@[simp] theorem past_diagnostics : (past s).diagnostics = s.diagnostics := rfl

/-- Everything an instruction can do from `s`, form by form: the instruction and the next state. -/
inductive ExecEffect : Instr → State → Prop
  | idle (i : Instr) (h : isIdle i = true) : ExecEffect i (past s)
  | jumpFull (target : Byte) (h : s.depth.val = 14) : ExecEffect (.jump target) (past (s.raiseDiag .stackOverflow))
  | jumpRoom (target : Byte) (d : Fin 15) (h : s.depth.val ≠ 14) (hd : d.val = s.depth.val + 1) :
      ExecEffect (.jump target)
        { s.ramWrite (stackSlot s.depth) s.pc with depth := d, latch := Latch.noOp, pc := target }
  | retEmpty (h : s.depth.val = 0) : ExecEffect .ret (past (s.raiseDiag .stackEmpty))
  | retLive (h : s.depth.val ≠ 0) : ExecEffect .ret
      { s.ramWrite (stackSlot (topSlot s)) 0x00 with
        depth := topSlot s, latch := Latch.noOp, pc := s.ramRead (stackSlot (topSlot s)) + 4 }
  | add : ExecEffect .add (past
      { s.setReg .C (s.reg .A + s.reg .B) with alu := ⟨s.reg .A, s.reg .B, s.reg .A + s.reg .B⟩ })
  | setRamPointer (v : Byte) : ExecEffect (.setRamPointer v) (past { s with ptr := v })
  | ramSetOutside (v : Byte) (h : dataAddress s = none) : ExecEffect (.ramSet v) (past (s.raiseDiag .outOfRange))
  | ramSetInside (v : Byte) (o : Offset) (h : dataAddress s = some o) : ExecEffect (.ramSet v) (past (s.ramWrite o v))
  | ldOutside (id : Byte) (h : dataAddress s = none) : ExecEffect (.ld id) (past (s.raiseDiag .outOfRange))
  | ldInvalid (id : Byte) (o : Offset) (h : dataAddress s = some o) (hr : registerOfId id = none) :
      ExecEffect (.ld id) (past (s.raiseDiag .invalidRegister))
  | ldInside (id : Byte) (o : Offset) (r : Reg) (h : dataAddress s = some o) (hr : registerOfId id = some r) :
      ExecEffect (.ld id) (past (s.setReg r (s.ramRead o)))
  | nextRomBank : ExecEffect .nextRomBank (past { s with bank := s.bank + 1 })

/-- Every instruction has one of the effects. -/
theorem exec_effect_exists (i : Instr) : ∃ t, ExecEffect s i t ∧ exec i s = .next t := by
  cases i with
  | jump target =>
    by_cases h : s.depth.val = 14
    · exact ⟨_, .jumpFull target h, execJump_full s target h⟩
    · obtain ⟨d, hd, he⟩ := execJump_room s target h
      exact ⟨_, .jumpRoom target d h hd, he⟩
  | ret =>
    by_cases h : s.depth.val = 0
    · exact ⟨_, .retEmpty h, execReturn_empty s h⟩
    · exact ⟨_, .retLive h, execReturn_live s h⟩
  | add => exact ⟨_, .add, execAdd_eq s⟩
  | setRamPointer v => exact ⟨_, .setRamPointer v, execSetRamPointer_eq s v⟩
  | ramSet v =>
    cases h : dataAddress s with
    | none => exact ⟨_, .ramSetOutside v h, execRamSet_outside s v h⟩
    | some o => exact ⟨_, .ramSetInside v o h, execRamSet_inside s v h⟩
  | ld id =>
    cases h : dataAddress s with
    | none => exact ⟨_, .ldOutside id h, execLd_outside s id h⟩
    | some o =>
      cases hr : registerOfId id with
      | none => exact ⟨_, .ldInvalid id o h hr, execLd_invalid s id h hr⟩
      | some r => exact ⟨_, .ldInside id o r h hr, execLd_inside s id h hr⟩
  | nextRomBank => exact ⟨_, .nextRomBank, execNextRomBank_eq s⟩
  | nop | endMarker | unrecognized09 | unrecognized0A | unrecognized0C | unrecognized10 | unrecognized20
    | unrecognized40 | unrecognized80 => exact ⟨_, .idle _ rfl, rfl⟩

/-- The effects say exactly what `exec` answers. -/
theorem exec_eq_next_iff {s : State} {i : Instr} {t : State} : exec i s = .next t ↔ ExecEffect s i t := by
  constructor
  · intro h
    obtain ⟨u, hu, he⟩ := exec_effect_exists s i
    cases he.symm.trans h
    exact hu
  · intro h
    cases h with
    | idle i h => cases i <;> first | rfl | cases h
    | jumpFull target h => exact execJump_full s target h
    | jumpRoom target d h hd =>
      obtain ⟨d', hd', he⟩ := execJump_room s target h
      have : d' = d := Fin.ext (hd'.trans hd.symm)
      exact this ▸ he
    | retEmpty h => exact execReturn_empty s h
    | retLive h => exact execReturn_live s h
    | add => exact execAdd_eq s
    | setRamPointer v => exact execSetRamPointer_eq s v
    | ramSetOutside v h => exact execRamSet_outside s v h
    | ramSetInside v o h => exact execRamSet_inside s v h
    | ldOutside id h => exact execLd_outside s id h
    | ldInvalid id o h hr => exact execLd_invalid s id h hr
    | ldInside id o r h hr => exact execLd_inside s id h hr
    | nextRomBank => exact execNextRomBank_eq s

/-- Everything a step can do. -/
theorem step_cases {t : State} (h : step s = .next t) :
    (s.paused = true ∧ t = s) ∨
    (s.paused = false ∧ fetch s = none ∧ outOfRangeFetch s = .next t) ∨
    (s.paused = false ∧ ∃ l, fetch s = some l ∧
      exec (decode l.opcode l.parameter l.operand) (s.loadLatch l) = .next t) := by
  unfold step at h
  split at h
  · rename_i hp; cases h; exact .inl ⟨hp, rfl⟩
  · rename_i hp
    have hp : s.paused = false := by simpa using hp
    split at h
    · rename_i hf; exact .inr (.inl ⟨hp, hf, h⟩)
    · rename_i l hf; exact .inr (.inr ⟨hp, l, hf, h⟩)

/-- A Running step that fetches executes. -/
theorem step_of_fetch {l : Latch} (hp : s.paused = false) (hf : fetch s = some l) :
    step s = exec (decode l.opcode l.parameter l.operand) (s.loadLatch l) := by
  unfold step
  simp [hp, hf]

end Sys2Proof.Machine
end

