-- ==== Sys2Proof/Laws/HostOps.lean ====
section
/-! SUPPORT. What the host's writes to program memory do, byte by byte. -/

namespace Sys2Proof.Machine

/-- Writing a slot changes program memory alone. -/
theorem writeSlot_keeps (k : Fin 4) (o : Byte) (sl : Slot) (s : State) :
    writeSlot k o sl s = { s with rom := (writeSlot k o sl s).rom } := by
  have one : ∀ (n : Nat) (v : Byte) (s : State),
      romWriteOrDrop k n v s = { s with rom := (romWriteOrDrop k n v s).rom } := by
    intro n v s; unfold romWriteOrDrop; split <;> rfl
  unfold writeSlot
  rw [one, one (o.toNat + 2), one (o.toNat + 1), one o.toNat]

/-- A byte after one write that may be dropped. -/
theorem romRead_romWriteOrDrop (k j : Fin 4) (n : Nat) (p : Offset) (v : Byte) (s : State) :
    (romWriteOrDrop k n v s).romRead j p = if j = k ∧ p.val = n then v else s.romRead j p := by
  unfold romWriteOrDrop
  split
  · rw [romRead_romWrite]; simp [Fin.ext_iff]
  · have := p.isLt
    have hn : ¬(j = k ∧ p.val = n) := by rintro ⟨-, h⟩; omega
    rw [if_neg hn]

/-- A byte after a slot is written. -/
theorem romRead_writeSlot (k j : Fin 4) (o : Byte) (p : Offset) (sl : Slot) (s : State) :
    (writeSlot k o sl s).romRead j p =
      if j ≠ k then s.romRead j p
      else if p.val = o.toNat then sl.opcode
      else if p.val = o.toNat + 1 then sl.parameter
      else if p.val = o.toNat + 2 then sl.operand
      else if p.val = o.toNat + 3 then sl.unused
      else s.romRead j p := by
  unfold writeSlot
  simp only [romRead_romWriteOrDrop]
  by_cases hj : j = k
  · simp only [hj, true_and, ne_eq, not_true_eq_false, if_false]
    split_ifs <;> first | rfl | omega
  · simp [hj]

/-- A byte of a bank after a load. -/
theorem read_imageMemory (img : Option Image) (o : Offset) :
    (imageMemory img).read o.val = match img with
      | none => 0x00
      | some bytes => bytes[o] := by
  cases img with
  | none => rfl
  | some bytes =>
    have h := Memory.read_ofBytes bytes.toList 0 o.val (by simp)
    simpa [imageMemory] using h

/-- A loaded bank is in canonical form. -/
theorem wf_imageMemory (img : Option Image) : (imageMemory img).wf := by
  cases img with
  | none => exact Memory.wf_nil
  | some bytes => exact Memory.wf_ofBytes _ _ (by simp)

/-- A byte after one bank is loaded. -/
theorem romRead_loadBank (k j : Fin 4) (img : Option Image) (o : Offset) (s : State) :
    (loadBank k img s).romRead j o = if j = k then (imageMemory img).read o.val else s.romRead j o := by
  simp only [State.romRead, loadBank, rom_set_get]
  split <;> rfl

/-- Each bank after all are loaded. -/
theorem loadAllBanks_bank (imgs : Option Images) (s : State) (j : Fin 4) :
    (loadAllBanks imgs s).rom[j] = imageMemory (imgs.map (·[j])) := by
  simp only [loadAllBanks, loadBank, Fin.getElem_fin, Vector.getElem_set]
  have hj := j.isLt
  obtain ⟨j, h⟩ := j
  match j, h with
  | 0, _ => rfl
  | 1, _ => rfl
  | 2, _ => rfl
  | 3, _ => rfl

/-- A slot placed for the next step changes program memory, and makes the engine run at a counter that can fetch. -/
theorem placeSlot_keeps (sl : Slot) (s : State) : placeSlot sl s =
    { s with rom := (placeSlot sl s).rom, paused := false, pc := if s.pc.toNat ≤ 0xFC then s.pc else 0x00 } := by
  unfold placeSlot
  rw [writeSlot_keeps]
  rfl

end Sys2Proof.Machine
end

