-- ==== Sys2Proof/Laws/PerInstr.lean ====
section
/-! SUPPORT. Families of statements about the instruction as syntax, one lemma per constructor. -/

namespace Sys2Proof.Laws.DecodeBack

/-- Decoding the three bytes an instruction is encoded with gives the instruction. -/
def Statement (i : Instr) : Prop := i.WellFormed → decode i.opcode i.parameter i.operand = i

theorem nop : Statement .nop := fun _ => rfl
theorem jump (target : Byte) : Statement (.jump target) := fun _ => rfl
theorem ret : Statement .ret := fun _ => rfl
theorem add : Statement .add := fun _ => rfl
theorem setRamPointer (value : Byte) : Statement (.setRamPointer value) := fun _ => rfl
theorem ramSet (value : Byte) : Statement (.ramSet value) := fun _ => rfl
theorem ld (registerId : Byte) : Statement (.ld registerId) := fun _ => rfl
theorem nextRomBank : Statement .nextRomBank := fun _ => rfl
theorem endMarker : Statement .endMarker := fun _ => rfl
theorem unrecognized09 : Statement .unrecognized09 := fun _ => rfl

theorem unrecognized0A (opcode : Byte) : Statement (.unrecognized0A opcode) := by
  have h : ∀ op : Byte, opcodeInRow 0x0A 0x0B op = true → decode op 0 0 = .unrecognized0A op := by decide
  exact h opcode

theorem unrecognized0C (opcode : Byte) : Statement (.unrecognized0C opcode) := by
  have h : ∀ op : Byte, opcodeInRow 0x0C 0x0F op = true → decode op 0 0 = .unrecognized0C op := by decide
  exact h opcode

theorem unrecognized10 (opcode : Byte) : Statement (.unrecognized10 opcode) := by
  have h : ∀ op : Byte, opcodeInRow 0x10 0x1F op = true → decode op 0 0 = .unrecognized10 op := by decide
  exact h opcode

theorem unrecognized20 (opcode : Byte) : Statement (.unrecognized20 opcode) := by
  have h : ∀ op : Byte, opcodeInRow 0x20 0x3F op = true → decode op 0 0 = .unrecognized20 op := by decide
  exact h opcode

theorem unrecognized40 (opcode : Byte) : Statement (.unrecognized40 opcode) := by
  have h : ∀ op : Byte, opcodeInRow 0x40 0x7F op = true → decode op 0 0 = .unrecognized40 op := by decide
  exact h opcode

theorem unrecognized80 (opcode : Byte) : Statement (.unrecognized80 opcode) := by
  have h : ∀ op : Byte, opcodeInRow 0x80 0xFF op = true → decode op 0 0 = .unrecognized80 op := by decide
  exact h opcode

end Sys2Proof.Laws.DecodeBack
end

