-- ==== Sys2Proof/Laws/Step.lean ====
section
/-! SUPPORT. A slot placed for the next step is the one the next step runs. -/

namespace Sys2Proof.Machine

/-- The counter of a placed slot can fetch. -/
theorem placeSlot_pc_le (sl : Slot) (s : State) : (placeSlot sl s).pc.toNat ≤ 0xFC := by
  rw [placeSlot_keeps]
  show (if s.pc.toNat ≤ 0xFC then s.pc else 0x00).toNat ≤ 0xFC
  split
  · assumption
  · decide

/-- What the next step fetches after a slot is placed. -/
theorem fetch_placeSlot (sl : Slot) (s : State) :
    fetch (placeSlot sl s) = some ⟨sl.opcode, sl.parameter, sl.operand⟩ := by
  have hle := placeSlot_pc_le sl s
  have hb : (placeSlot sl s).bank = s.bank := by rw [placeSlot_keeps]
  have hr : ∀ p : Offset, (placeSlot sl s).romRead s.bank p =
      (writeSlot s.bank (placeSlot sl s).pc sl s).romRead s.bank p := by
    intro p
    rw [romRead_writeSlot]
    have hpc : (placeSlot sl s).pc = if s.pc.toNat ≤ Config.lastFetch then s.pc else 0x00 := by
      rw [placeSlot_keeps]; rfl
    rw [hpc]
    unfold placeSlot
    rw [romRead_writeSlot]
    rfl
  refine fetch_eq_some.2 ⟨⟨(placeSlot sl s).pc.toNat, by omega⟩, ⟨(placeSlot sl s).pc.toNat + 1, by omega⟩,
    ⟨(placeSlot sl s).pc.toNat + 2, by omega⟩, rfl, rfl, rfl, ?_⟩
  rw [hb]
  simp [hr, romRead_writeSlot]

/-- `withFetchWord` makes the next step run the word's instruction. -/
theorem step_withFetchWord (s : State) (nbits w : Nat) : ∃ l, step (s.withFetchWord nbits w) =
    exec (decode (slotOfTableWord nbits w).opcode (slotOfTableWord nbits w).parameter (slotOfTableWord nbits w).operand)
      ((s.withFetchWord nbits w).loadLatch l) :=
  ⟨_, step_of_fetch _ (by rw [placeSlot_keeps]) (fetch_placeSlot _ s)⟩

end Sys2Proof.Machine
end

