-- ==== Sys2Proof/Tests/Slice0.lean ====
section
/-! SUPPORT. Tests of the model on the spec's own vectors (95_test_vectors.md), the smoke test of the well-formedness check, and
for every statement with hypotheses a state and operands that meet them. -/

namespace Sys2Proof.Tests

open Sys2Proof.Machine

/-! ## Helpers -/

/-- The reset state, Running. -/
def start : State := { State.reset with paused := false }

/-- A state with a slot at `pc` of the active bank. -/
def at_ (s : State) (sl : Slot) : State := writeSlot s.bank s.pc sl s

/-- The next state of a step, or the state itself. -/
def after (s : State) : State :=
  match step s with
  | .next t => t
  | .fault _ => s
  | .refused _ => s

/-- A RAM byte set. -/
def poke (o : Offset) (v : Byte) (s : State) : State := s.ramWrite o v

/-! ## Well-formedness: a term in each row's check that the check refuses -/

theorem test_row0A_refuses : ¬(Instr.unrecognized0A 0x0C).WellFormed ∧ ¬(Instr.unrecognized0A 0x09).WellFormed := by decide
theorem test_row0C_refuses : ¬(Instr.unrecognized0C 0x10).WellFormed ∧ ¬(Instr.unrecognized0C 0x0B).WellFormed := by decide
theorem test_row10_refuses : ¬(Instr.unrecognized10 0x20).WellFormed ∧ ¬(Instr.unrecognized10 0x0F).WellFormed := by decide
theorem test_row20_refuses : ¬(Instr.unrecognized20 0x40).WellFormed ∧ ¬(Instr.unrecognized20 0x1F).WellFormed := by decide
theorem test_row40_refuses : ¬(Instr.unrecognized40 0x80).WellFormed ∧ ¬(Instr.unrecognized40 0x3F).WellFormed := by decide
theorem test_row80_refuses : ¬(Instr.unrecognized80 0x7F).WellFormed ∧ ¬(Instr.unrecognized80 0x00).WellFormed := by decide

/-! ## Decoding: a word of every row, written from R93, R98, R99 and the rules' examples -/

theorem test_decode_nop : decodeTableWord 32 0b00000000111111111111111111111111 = some .nop := by decide
theorem test_decode_jump : decodeTableWord 32 0b00000001000001110011000100001001 = some (.jump 0x31) := by decide
theorem test_decode_return : decodeTableWord 32 0b00000010000000000000000000000000 = some .ret := by decide
theorem test_decode_add : decodeTableWord 32 0b00000011000000111001100100000000 = some .add := by decide
theorem test_decode_setRamPointer : decodeTableWord 32 0b00000100000001011111000000000000 = some (.setRamPointer 0xF0) := by decide
theorem test_decode_ramSet : decodeTableWord 32 0b00000101000000001010101100000000 = some (.ramSet 0xAB) := by decide
theorem test_decode_ld : decodeTableWord 32 0b00000110000000110111011100000000 = some (.ld 0x03) := by decide
theorem test_decode_nextRomBank : decodeTableWord 32 0b00000111000000000000000000000000 = some .nextRomBank := by decide
theorem test_decode_end : decodeTableWord 32 0b00001000000100100011010000000000 = some .endMarker := by decide
theorem test_decode_09 : decodeTableWord 32 0b00001001000000000000000000000000 = some .unrecognized09 := by decide
theorem test_decode_0A : decodeTableWord 32 0b00001011000000000000000000000000 = some (.unrecognized0A 0x0B) := by decide
theorem test_decode_0C : decodeTableWord 32 0b00001110000000000000000000000000 = some (.unrecognized0C 0x0E) := by decide
theorem test_decode_10 : decodeTableWord 32 0b00011010000000000000000000000000 = some (.unrecognized10 0x1A) := by decide
theorem test_decode_20 : decodeTableWord 32 0b00111111000000000000000000000000 = some (.unrecognized20 0x3F) := by decide
theorem test_decode_40 : decodeTableWord 32 0b01000000000000000000000000000000 = some (.unrecognized40 0x40) := by decide
theorem test_decode_80 : decodeTableWord 32 0b11111111000000010000001000000011 = some (.unrecognized80 0xFF) := by decide
theorem test_decode_truncated : decodeBytes [0x01, 0x00] = .error .truncatedSlot := by decide
theorem test_encode_ld : (encode (.ld 0x01)).bytes = [0x06, 0x01, 0x00, 0x00] := by decide

/-! ## Instructions: vectors of 95_test_vectors.md -/

/-- V8. -/
theorem test_nop : (after (at_ { start with pc := 0x10 } ⟨0x00, 0xFF, 0xFF, 0xFF⟩)).pc = 0x14 := by decide
/-- V9. -/
theorem test_end : (after (at_ { start with pc := 0x20 } ⟨0x08, 0x12, 0x34, 0x00⟩)).pc = 0x24 := by decide
/-- V10. -/
theorem test_unrecognized : (after (at_ start ⟨0x09, 0x00, 0x00, 0x00⟩)).pc = 0x04 := by decide
/-- V13. -/
theorem test_jump :
    let t := after (at_ { start with pc := 0x10 } ⟨0x01, 0x00, 0x30, 0x00⟩)
    t.pc = 0x30 ∧ t.depth = 1 ∧ t.ramRead 0xF0 = 0x10 ∧ t.diagnostics = [] := by decide
/-- V16. -/
theorem test_jump_full :
    let t := after (at_ { start with pc := 0x40, depth := 14 } ⟨0x01, 0x00, 0x80, 0x00⟩)
    t.pc = 0x44 ∧ t.depth = 14 ∧ t.ram = [] ∧ t.diagnostics = [⟨.stackOverflow, 0x40, 0⟩] := by decide
/-- V22. -/
theorem test_return :
    let t := after (at_ (poke 0xF0 0x04 (poke 0xF1 0xFC { start with pc := 0x60, depth := 2 })) ⟨0x02, 0x00, 0x00, 0x00⟩)
    t.pc = 0x00 ∧ t.depth = 1 ∧ t.ram = [(0xF0, 0x04)] := by decide
/-- V21. -/
theorem test_return_empty :
    let t := after (at_ { start with pc := 0x30 } ⟨0x02, 0x00, 0x00, 0x00⟩)
    t.pc = 0x34 ∧ t.depth = 0 ∧ t.diagnostics = [⟨.stackEmpty, 0x30, 0⟩] := by decide
/-- V26. -/
theorem test_add_wraps :
    (after (at_ { start with regs := ⟨0xFF, 0x02, 0x00, 0x00⟩ } ⟨0x03, 0x00, 0x00, 0x00⟩)).regs = ⟨0xFF, 0x02, 0x01, 0x00⟩ := by
  decide
/-- V31. -/
theorem test_add_ignores_fields :
    (after (at_ { start with regs := ⟨0x10, 0x20, 0x55, 0x77⟩ } ⟨0x03, 0x03, 0x99, 0x00⟩)).regs = ⟨0x10, 0x20, 0x30, 0x77⟩ := by
  decide
/-- V33. -/
theorem test_setRamPointer : (after (at_ start ⟨0x04, 0x00, 0xFF, 0x00⟩)).ptr = 0xFF := by decide
/-- V37. -/
theorem test_ramSet : (after (at_ { start with ptr := 0xFE } ⟨0x05, 0x00, 0xAB, 0x00⟩)).ram = [(0xFE, 0xAB)] := by decide
/-- V36. -/
theorem test_ramSet_outOfRange :
    let t := after (at_ { start with ptr := 0xFF } ⟨0x05, 0x00, 0xAB, 0x00⟩)
    t.ram = [] ∧ t.diagnostics = [⟨.outOfRange, 0x00, 0⟩] := by decide
/-- V38. -/
theorem test_ld : (after (at_ (poke 0x10 0xAB { start with ptr := 0x10 }) ⟨0x06, 0x01, 0x00, 0x00⟩)).regs = ⟨0, 0xAB, 0, 0⟩ := by
  decide
/-- V40. -/
theorem test_ld_priority :
    (after (at_ { start with ptr := 0xFF } ⟨0x06, 0xFF, 0x00, 0x00⟩)).diagnostics = [⟨.outOfRange, 0x00, 0⟩] := by decide
/-- V45. -/
theorem test_nextRomBank :
    let t := after (at_ { start with bank := 3 } ⟨0x07, 0x00, 0x00, 0x00⟩)
    t.bank = 0 ∧ t.pc = 0x04 := by decide

/-! ## The cycle and the host interface: vectors of 95_test_vectors.md -/

/-- V2. -/
theorem test_counter_wraps : (after { start with pc := 0xFC }).pc = 0x00 := by decide
/-- V5. -/
theorem test_fetch_outOfRange :
    let t := after { start with pc := 0xFF, bank := 2 }
    t.pc = 0x03 ∧ t.diagnostics = [⟨.outOfRange, 0xFF, 2⟩] := by decide
/-- V6. -/
theorem test_unaligned_fetch :
    let t := after { at_ { start with regs := ⟨0x01, 0x02, 0, 0⟩ } ⟨0x00, 0x03, 0x00, 0x00⟩ with pc := 0x01 }
    t.regs = ⟨0x01, 0x02, 0x03, 0⟩ ∧ t.pc = 0x05 := by decide
/-- V7. -/
theorem test_paused_wins : after { start with paused := true, pc := 0xFE } = { start with paused := true, pc := 0xFE } := by rfl
/-- V48. -/
theorem test_poke_drops_padding : pokeInstruction 0x01 0xFC 0x03 0x00 0x00 start =
    .ok { start with rom := #v[[], [(0xFC, 0x03)], [], []] } := by decide
/-- V54. -/
theorem test_snapshot :
    (snapshot (after (at_ { start with pc := 0x10 } ⟨0x01, 0x00, 0x30, 0x00⟩))).stackContents =
      #v[0x10, 0, 0, 0, 0, 0, 0, 0, 0, 0, 0, 0, 0, 0, 0] := by decide
/-- R241's table of codes and severities. -/
theorem test_diagnostic_codes :
    [DiagKind.stackOverflow, .stackEmpty, .invalidRegister, .outOfRange].map (fun k => (k.code, k.severity)) =
      [(1, .recoverable), (2, .recoverable), (3, .recoverable), (4, .recoverable)] := by decide
/-- A word of the opcode table runs as the first instruction after reset (R98, R271). -/
theorem test_withFetchWord : (after (State.reset.withFetchWord 32 0x04001000)).ptr = 0x10 := by decide

/-! ## Witnesses: states and operands that meet the statements' hypotheses -/

theorem witness_DecodeOfEncodeIsTheInstruction :
    (Instr.unrecognized0A 0x0A).WellFormed ∧ (Instr.unrecognized80 0xFF).WellFormed ∧ (Instr.ld 0xFF).WellFormed := by decide

theorem witness_UnusedFieldsChangeNothing : ∃ opcode parameter operand parameter' operand' : Byte,
    (opcode = 0x01 ∨ opcode = 0x04 ∨ opcode = 0x05 → operand' = operand) ∧
    (opcode = 0x06 → parameter' = parameter) ∧ operand ≠ operand' := ⟨0x06, 0x01, 0x00, 0x01, 0x99, by decide⟩

theorem witness_StepRunsTheDecodedInstruction :
    let s := at_ { start with pc := 0xFC } ⟨0x03, 0x00, 0x00, 0x00⟩
    s.paused = false ∧ (0xFC : Offset).val = s.pc.toNat ∧ (0xFD : Offset).val = s.pc.toNat + 1 ∧
      (0xFE : Offset).val = s.pc.toNat + 2 ∧
      decodeBytes [s.romRead s.bank 0xFC, s.romRead s.bank 0xFD, s.romRead s.bank 0xFE] = .ok .add := by decide

theorem witness_OutOfRangeFetchExecutesNothing :
    let s := { start with pc := 0xFD }
    s.paused = false ∧ 0xFC < s.pc.toNat := by decide

theorem witness_PausedStepsChangeNothing : { start with paused := true }.paused = true := rfl

theorem witness_CounterAfterEachKindOfStep :
    ({ start with paused := true }.paused = true) ∧
    (start.paused = false ∧ 0xFC < { start with pc := 0xFD }.pc.toNat) ∧
    (start.paused = false ∧ fetched { start with pc := 0xFC } = some .nop) := by decide

theorem witness_LatchIsClearedAfterEveryInstruction : ∃ t, exec .ret start = .next t := ⟨_, rfl⟩

theorem witness_NopAndReservedOpcodesOnlyAdvance :
    ((0x00 : Byte) = 0x00 ∨ 0x08 ≤ (0x00 : Byte).toNat) ∧ ((0x08 : Byte) = 0x00 ∨ 0x08 ≤ (0x08 : Byte).toNat) ∧
    ((0xFF : Byte) = 0x00 ∨ 0x08 ≤ (0xFF : Byte).toNat) := by decide

theorem witness_JumpPushesItsOwnAddressAndGoesToTheTarget :
    start.depth.val < 14 ∧ { start with depth := 13 }.depth.val < 14 ∧ { start with depth := 14 }.depth.val = 14 := by decide

theorem witness_ReturnPopsAndGoesPastTheCall :
    0 < { start with depth := 1 }.depth.val ∧ 0 < { start with depth := 14 }.depth.val ∧ start.depth.val = 0 := by decide

theorem witness_RamSetStoresAtThePointer :
    (0 : Offset).val = start.ptr.toNat ∧ (0xFE : Offset).val = { start with ptr := 0xFE }.ptr.toNat ∧
    { start with ptr := 0xFF }.ptr = 0xFF := by decide

theorem witness_LdCopiesTheByteAtThePointer :
    ((0xFE : Offset).val = { start with ptr := 0xFE }.ptr.toNat ∧ (0x03 : Byte).toNat = Reg.D.id) ∧
    { start with ptr := 0xFF }.ptr = 0xFF ∧
    ({ start with ptr := 0xFE }.ptr ≠ 0xFF ∧ 3 < (0x04 : Byte).toNat) := by decide

theorem witness_RegistersChangeOnlyByAddAndLd :
    (∃ t, exec .add { start with regs := ⟨1, 2, 0, 0⟩ } = .next t ∧
      t.reg .C ≠ { start with regs := ⟨1, 2, 0, 0⟩ }.reg .C) ∧
    ∃ t, exec (.ld 0x01) (poke 0 0xAB start) = .next t ∧ t.reg .B ≠ (poke 0 0xAB start).reg .B :=
  ⟨⟨_, rfl, by decide⟩, _, rfl, by decide⟩

theorem witness_RamChangesOnlyWhereAnInstructionStores :
    (∃ t, exec (.ramSet 0xAB) start = .next t ∧ t.ramRead 0 ≠ start.ramRead 0) ∧
    (∃ t, exec (.jump 0x30) { start with pc := 0x10 } = .next t ∧ t.ramRead 0xF0 ≠ start.ramRead 0xF0) ∧
    ∃ t, exec .ret (poke 0xF0 0x10 { start with depth := 1 }) = .next t ∧
      t.ramRead 0xF0 ≠ (poke 0xF0 0x10 { start with depth := 1 }).ramRead 0xF0 :=
  ⟨⟨_, rfl, by decide⟩, ⟨_, rfl, by decide⟩, _, rfl, by decide⟩

theorem witness_ControlStateHasTheStatedWriters :
    (∃ t, exec .nextRomBank start = .next t ∧ t.bank ≠ start.bank) ∧
    (∃ t, exec (.setRamPointer 0x10) start = .next t ∧ t.ptr ≠ start.ptr) ∧
    (∃ t, exec (.jump 0x30) start = .next t ∧ t.depth ≠ start.depth) ∧
    (∃ t, exec .ret { start with depth := 1 } = .next t ∧ t.depth ≠ { start with depth := 1 }.depth) ∧
    ∃ t, exec .add { start with regs := ⟨1, 2, 0, 0⟩ } = .next t ∧ t.alu ≠ start.alu :=
  ⟨⟨_, rfl, by decide⟩, ⟨_, rfl, by decide⟩, ⟨_, rfl, by decide⟩, ⟨_, rfl, by decide⟩, _, rfl, by decide⟩

theorem witness_StepWritesNoRomAndNoVram : ∃ t, step (at_ start ⟨0x05, 0x00, 0xAB, 0x00⟩) = .next t := ⟨_, rfl⟩

theorem witness_NoInstructionReachesVram : ∃ t, exec (.ramSet 0xAB) start = .next t := ⟨_, rfl⟩

theorem witness_StepReadsOnlyTheFetchedBytes :
    (∀ o : Offset, start.pc.toNat ≤ o.val → o.val ≤ start.pc.toNat + 2 →
      (#v[[(3, 0x55)], [(0, 0x77)], [], []] : Vector Memory 4)[start.bank].read o.val = start.romRead start.bank o) ∧
    ∃ t, step start = .next t := by
  refine ⟨fun o _ h => ?_, _, rfl⟩
  have h : o.val ≤ 2 := h
  have hne : ¬3 = o.val := by omega
  simp [start, State.reset, State.romRead, Memory.read, hne]

theorem witness_AluLatchesAreNotObservable :
    (∃ t, step (at_ start ⟨0x03, 0x00, 0x00, 0x00⟩) = .next t) ∧
    (∃ a t, transact .snapshot start = .next (a, t)) ∧
    ∃ as t, runTransactions [.step, .snapshot] (at_ start ⟨0x03, 0x00, 0x00, 0x00⟩) = .next (as, t) :=
  ⟨⟨_, rfl⟩, ⟨_, _, rfl⟩, _, _, rfl⟩

theorem witness_StepAppendsTheFirstConditionsEvent :
    (∃ t, step { start with paused := true } = .next t) ∧
    (∃ t, step { start with pc := 0xFD } = .next t ∧ 0xFC < { start with pc := 0xFD }.pc.toNat) ∧
    ∃ t, step (at_ start ⟨0x06, 0x04, 0x00, 0x00⟩) = .next t ∧
      fetched (at_ start ⟨0x06, 0x04, 0x00, 0x00⟩) = some (.ld 0x04) :=
  ⟨⟨_, rfl⟩, ⟨_, rfl, by decide⟩, _, rfl, by decide⟩

theorem witness_RefusalIsAllOrNothing : ∃ t, exec .ret start = .next t ∧ t.diagnostics ≠ start.diagnostics :=
  ⟨_, rfl, by decide⟩

theorem witness_DiagnosticOutputOnlyGrows : ∃ a t, transact .step { start with pc := 0xFE } = .next (a, t) := ⟨_, _, rfl⟩

theorem witness_PushWritesTheSlotOfTheDepth :
    { start with depth := 14 }.depth.val = 14 ∧ { start with depth := 13 }.depth.val ≠ 14 := by decide

theorem witness_PopReadsAndZeroesTheTopSlot : start.depth.val = 0 ∧ { start with depth := 14 }.depth.val ≠ 0 := by decide

theorem witness_ReturnGoesToTheSlotAfterTheJump : ∃ t u : State,
    { start with depth := 13 }.depth.val < 14 ∧ exec (.jump 0x30) { start with depth := 13 } = .next t ∧
    u.depth = t.depth ∧ u.ramRead (stackSlot 13) = t.ramRead (stackSlot 13) :=
  ⟨_, _, by decide, rfl, rfl, rfl⟩

theorem witness_BalancedRunKeepsTheCallStack : ∃ t v : State,
    start.depth.val < 14 ∧ exec (.jump 0x30) start = .next t ∧ BalancedRun t t ∧ exec .ret t = .next v ∧
    BalancedRun start v :=
  ⟨_, _, by decide, rfl, .done _, rfl, .call 0x30 (by decide) rfl (.done _) rfl (.done _)⟩

theorem witness_StackSlotsAreRamBytes :
    let s := { start with ptr := 0xFD, depth := 14 }
    s.ptr.toNat = 0xF0 + (13 : Fin 15).val ∧ registerOfId 0x03 = some .D ∧ s.depth.val = (13 : Fin 15).val + 1 := by decide

theorem witness_FifteenthNestedJumpIsRefused : (List.replicate 14 (0x30 : Byte)).length = 14 ∧ start.depth.val = 0 := by decide

theorem witness_DisciplinedStepKeepsAlignment :
    { start with pc := 0xFC }.Aligned ∧ Disciplined (.jump 0xFC) start ∧
    (∃ t, step (at_ start ⟨0x01, 0x00, 0xFC, 0x00⟩) = .next t) := by
  refine ⟨⟨by decide, fun k hk => absurd hk (Fin.not_lt_zero k)⟩, ⟨?_, ?_⟩, _, rfl⟩
  · rintro target h; cases h; decide
  · rintro value h; cases h

/-- W5's program. -/
def bankWalk : State :=
  writeSlot 0 0x10 ⟨7, 0, 0, 0⟩ (writeSlot 1 0x14 ⟨7, 0, 0, 0⟩ (writeSlot 2 0x18 ⟨7, 0, 0, 0⟩
    (writeSlot 3 0x1C ⟨7, 0, 0, 0⟩ { start with pc := 0x10 })))

theorem witness_FourBankSwitchesReturnToTheBank :
    bankWalk.paused = false ∧ ∀ k : Fin 4,
      fetched { bankWalk with bank := bankWalk.bank + k, pc := bankWalk.pc + BitVec.ofNat 8 (4 * k.val) } =
        some .nextRomBank := by decide

theorem witness_NextFetchReadsTheNewBank :
    let s := at_ { start with pc := 0xFC, bank := 3 } ⟨0x07, 0x00, 0x00, 0x00⟩
    s.paused = false ∧ fetched s = some .nextRomBank := by decide

theorem start_inv : start.Inv := ⟨by decide, by decide, by decide, rfl⟩

theorem witness_StepKeepsTheInvariant : ∃ t, start.Inv ∧ step start = .next t := ⟨_, start_inv, rfl⟩

theorem witness_TransactionsKeepTheInvariant :
    (∃ a t, start.Inv ∧ transact (.pokeData 0xFE 0x01) start = .next (a, t)) ∧
    ∃ as t, start.Inv ∧ runTransactions [.writeRom 0x03 0xFE 0x01, .step] start = .next (as, t) :=
  ⟨⟨_, _, start_inv, rfl⟩, _, _, start_inv, rfl⟩

theorem witness_EqualBytesAreEqualMemories : ∃ s t : State, s.Inv ∧ t.Inv ∧ s ≠ t ∧
    (∀ (b : Fin 4) (o : Offset), s.romRead b o = t.romRead b o) ∧ (∀ o : Offset, s.ramRead o = t.ramRead o) ∧
    ∀ o : Offset, s.vramRead o = t.vramRead o :=
  ⟨start, { start with pc := 0x04 }, start_inv, ⟨start_inv.rom, start_inv.ram, start_inv.vram, rfl⟩, by decide,
    fun _ _ => rfl, fun _ => rfl, fun _ => rfl⟩

theorem witness_PausedIsTheHosts : ∃ a t, transact (.setPaused true) start = .next (a, t) ∧ t.paused ≠ start.paused :=
  ⟨_, _, rfl, by decide⟩

theorem witness_OnlyStepAndResetWriteTheEngine : ∃ a t,
    transact (.setRegister 0x02 0x9A) start = .next (a, t) ∧ Transaction.setRegister 0x02 0x9A ≠ .step ∧
    ∀ imgs, Transaction.setRegister 0x02 0x9A ≠ .reset imgs := ⟨_, _, rfl, by simp, by simp⟩

theorem witness_PokeInstructionWritesOneSlot :
    3 < (0x04 : Byte).toNat ∧ ((0x03 : Byte).toNat ≤ 3 ∧ 0xFC < (0xFD : Byte).toNat) ∧
    ((0x03 : Byte).toNat ≤ 3 ∧ (0xFC : Byte).toNat ≤ 0xFC) := by decide

theorem witness_RomIsReadAndWrittenByBankAndOffset :
    ((3 : Fin 4).val = (0x03 : Byte).toNat ∧ (0xFE : Offset).val = (0xFE : Byte).toNat) ∧
    (3 < (0x04 : Byte).toNat ∧ (0xFE : Byte) ≠ 0xFF) ∧ ((0x03 : Byte).toNat ≤ 3 ∧ (0xFF : Byte) = 0xFF) ∧
    (3 < (0xFF : Byte).toNat ∧ (0xFF : Byte) = 0xFF) := by decide

theorem witness_PokeDataWritesOneRamByte :
    (0xFE : Offset).val = (0xFE : Byte).toNat ∧ (0 : Offset).val = (0x00 : Byte).toNat ∧ (0xFF : Byte) = 0xFF := by decide

theorem witness_VramIsReadAndWrittenByTheHost :
    (0xFE : Offset).val = (0xFE : Byte).toNat ∧ (0 : Offset).val = (0x00 : Byte).toNat ∧ (0xFF : Byte) = 0xFF := by decide

theorem witness_HostSetsPointerAndRegisters : (0x03 : Byte).toNat = Reg.D.id ∧ 3 < (0x04 : Byte).toNat := by decide

theorem witness_SnapshotShowsTheState : (0xFE : Offset).val = 0xF0 + (14 : Fin 15).val := by decide

theorem witness_LoadWritesWholeBanks : 3 < (0x04 : Byte).toNat ∧ (3 : Fin 4).val = (0x03 : Byte).toNat := by decide

theorem witness_HostErrorsChangeNothing : ∃ k t, transact (.pokeData 0xFF 0x01) start = .next (.hostError k, t) :=
  ⟨_, _, rfl⟩

theorem witness_ReadTransactionsChangeNothing : ∃ as t,
    (∀ x ∈ [Transaction.isPaused, .snapshot, .readRom 0 0, .readData 0xFF, .readVram 0],
      x = .isPaused ∨ x = .snapshot ∨ (∃ b o, x = .readRom b o) ∨ (∃ o, x = .readData o) ∨ ∃ o, x = .readVram o) ∧
    runTransactions [.isPaused, .snapshot, .readRom 0 0, .readData 0xFF, .readVram 0] start = .next (as, t) :=
  ⟨_, _, by simp, rfl⟩

theorem witness_NextStepRunsThePokedInstruction :
    let s := { start with pc := 0xFC, bank := 3 }
    s.paused = false ∧ s.pc.toNat ≤ 0xFC ∧ (0x03 : Byte).toNat = s.bank.val := by decide

end Sys2Proof.Tests
end

section
/-! PROOFS of the family 10_state. First the layer of facts that the obligations share: what an instruction keeps
and who writes each item, what the host's transactions do, and how a run of transactions splits. -/

namespace Sys2Proof.Machine

/-! ## Register ids -/

/-- A byte names the register with its value. -/
theorem registerOfId_eq_some {id : Byte} {r : Reg} : registerOfId id = some r ↔ id.toNat = r.id := by
  rcases registerOfId_cases id with ⟨hn, hr⟩ | ⟨hn, hr⟩ | ⟨hn, hr⟩ | ⟨hn, hr⟩ | ⟨hn, hr⟩ <;> rw [hr]
  all_goals cases r <;> simp only [Reg.id, Option.some.injEq, reduceCtorEq, false_iff, true_iff] <;> omega

/-- A byte above 3 names no register. -/
theorem registerOfId_eq_none {id : Byte} : registerOfId id = none ↔ 4 ≤ id.toNat := by
  rcases registerOfId_cases id with ⟨hn, hr⟩ | ⟨hn, hr⟩ | ⟨hn, hr⟩ | ⟨hn, hr⟩ | ⟨hn, hr⟩ <;> rw [hr]
  all_goals simp only [reduceCtorEq, false_iff, true_iff]; omega

/-! ## What every instruction keeps, and the one writer of each item -/

namespace ExecEffect

variable {s t : State} {i : Instr}

theorem rom_eq (h : ExecEffect s i t) : t.rom = s.rom := by cases h <;> rfl

theorem vram_eq (h : ExecEffect s i t) : t.vram = s.vram := by cases h <;> rfl

theorem paused_eq (h : ExecEffect s i t) : t.paused = s.paused := by cases h <;> rfl

theorem latch_eq_noOp (h : ExecEffect s i t) : t.latch = Latch.noOp := by cases h <;> rfl

/-- The three stores write inside the array, so the canonical form stays. -/
theorem ram_wf (h : ExecEffect s i t) (hs : s.ram.wf) : t.ram.wf := by
  cases h with
  | jumpRoom target d h hd => exact Memory.wf_write s.pc hs (stackSlot s.depth).isLt
  | retLive h => exact Memory.wf_write 0x00 hs (stackSlot (topSlot s)).isLt
  | ramSetInside v o h => exact Memory.wf_write v hs o.isLt
  | _ => exact hs

/-- ADD and LD are the writers of the registers (R23). -/
theorem reg_writer {r : Reg} (h : ExecEffect s i t) (hne : t.reg r ≠ s.reg r) :
    (i = .add ∧ r = .C) ∨ ∃ id, i = .ld id ∧ registerOfId id = some r := by
  cases h with
  | add =>
    refine .inl ⟨rfl, ?_⟩
    by_contra hr
    exact hne (RegisterFile.get_set_other _ _ hr)
  | ldInside id o q h hq =>
    have hr : r = q := by
      by_contra hr
      exact hne (RegisterFile.get_set_other _ _ hr)
    exact .inr ⟨id, rfl, hr ▸ hq⟩
  | _ => exact absurd rfl hne

theorem bank_writer (h : ExecEffect s i t) (hne : t.bank ≠ s.bank) : i = .nextRomBank := by
  cases h with
  | nextRomBank => rfl
  | _ => exact absurd rfl hne

theorem ptr_writer (h : ExecEffect s i t) (hne : t.ptr ≠ s.ptr) : ∃ value, i = .setRamPointer value := by
  cases h with
  | setRamPointer v => exact ⟨v, rfl⟩
  | _ => exact absurd rfl hne

theorem depth_writer (h : ExecEffect s i t) (hne : t.depth ≠ s.depth) : i = .ret ∨ ∃ target, i = .jump target := by
  cases h with
  | jumpRoom target d h hd => exact .inr ⟨target, rfl⟩
  | retLive h => exact .inl rfl
  | _ => exact absurd rfl hne

theorem alu_writer (h : ExecEffect s i t) (hne : t.alu ≠ s.alu) : i = .add := by
  cases h with
  | add => rfl
  | _ => exact absurd rfl hne

/-- An instruction appends to the diagnostic output, or leaves it. -/
theorem diagnostics_grow (h : ExecEffect s i t) : s.diagnostics <+: t.diagnostics := by
  cases h with
  | jumpFull | retEmpty | ramSetOutside | ldOutside | ldInvalid => exact List.prefix_append _ _
  | _ => exact List.prefix_rfl

/-- An instruction reads neither the decode latch nor the ALU latches: with other values there its effect is the same, but
for the ALU latches it leaves, and those too are the same when only the decode latch differs. -/
theorem withLatches (l : Latch) (u : Alu) (h : ExecEffect s i t) :
    ∃ u', (u = s.alu → u' = t.alu) ∧ ExecEffect { s with latch := l, alu := u } i { t with alu := u' } := by
  cases h with
  | idle i h => exact ⟨u, id, .idle i h⟩
  | jumpFull target h => exact ⟨u, id, .jumpFull target h⟩
  | jumpRoom target d h hd => exact ⟨u, id, .jumpRoom target d h hd⟩
  | retEmpty h => exact ⟨u, id, .retEmpty h⟩
  | retLive h => exact ⟨u, id, .retLive h⟩
  | add => exact ⟨_, fun _ => rfl, .add⟩
  | setRamPointer v => exact ⟨u, id, .setRamPointer v⟩
  | ramSetOutside v h => exact ⟨u, id, .ramSetOutside v h⟩
  | ramSetInside v o h => exact ⟨u, id, .ramSetInside v o h⟩
  | ldOutside id' h => exact ⟨u, id, .ldOutside id' h⟩
  | ldInvalid id' o h hr => exact ⟨u, id, .ldInvalid id' o h hr⟩
  | ldInside id' o r h hr => exact ⟨u, id, .ldInside id' o r h hr⟩
  | nextRomBank => exact ⟨u, id, .nextRomBank⟩

end ExecEffect

/-! ## The step -/

/-- A step while Paused answers the state (R120). -/
theorem step_of_paused {s : State} (hp : s.paused = true) : step s = .next s := by
  unfold step
  rw [if_pos hp]

/-- A Running step whose fetch is out of range (R121). -/
theorem step_of_fetch_none {s : State} (hp : s.paused = false) (hf : fetch s = none) : step s = outOfRangeFetch s := by
  unfold step
  simp [hp, hf]

/-- A step appends to the diagnostic output, or leaves it. -/
theorem step_diagnostics_grow {s t : State} (h : step s = .next t) : s.diagnostics <+: t.diagnostics := by
  obtain ⟨-, rfl⟩ | ⟨-, -, ho⟩ | ⟨-, l, -, he⟩ := step_cases s h
  · exact List.prefix_rfl
  · cases (outOfRangeFetch_eq s).symm.trans ho
    exact List.prefix_append _ _
  · exact (exec_eq_next_iff.1 he).diagnostics_grow

/-- A step does not observe the ALU latches. -/
theorem step_withAlu {s t : State} (u : Alu) (h : step s = .next t) :
    ∃ u', step { s with alu := u } = .next { t with alu := u' } := by
  obtain ⟨hp, rfl⟩ | ⟨hp, hf, ho⟩ | ⟨hp, l, hf, he⟩ := step_cases s h
  · exact ⟨u, step_of_paused hp⟩
  · cases (outOfRangeFetch_eq s).symm.trans ho
    have hstep : step { s with alu := u } = outOfRangeFetch { s with alu := u } := step_of_fetch_none hp hf
    exact ⟨u, hstep⟩
  · obtain ⟨u', -, he'⟩ := (exec_eq_next_iff.1 he).withLatches l u
    have hstep := step_of_fetch { s with alu := u } hp (l := l) hf
    exact ⟨u', hstep.trans (exec_eq_next_iff.2 he')⟩

/-! ## The host's writes -/

/-- What an accepted `pokeInstruction` does. -/
theorem pokeInstruction_eq_ok {b o op pa od : Byte} {s t : State} : pokeInstruction b o op pa od s = .ok t ↔
    ∃ k, bankOf b = some k ∧ o.toNat ≤ 0xFC ∧ t = writeSlot k o ⟨op, pa, od, 0x00⟩ s := by
  unfold pokeInstruction
  cases bankOf b with
  | none => simp
  | some k => by_cases ho : o.toNat ≤ 0xFC <;> simp [ho, eq_comm]

/-- What an accepted `writeRom` does. -/
theorem writeRom_eq_ok {b o v : Byte} {s t : State} : writeRom b o v s = .ok t ↔
    ∃ k p, bankOf b = some k ∧ offsetOf o = some p ∧ t = s.romWrite k p v := by
  unfold writeRom romAddress
  cases bankOf b <;> cases offsetOf o <;> simp [eq_comm (b := t)]

/-- What an accepted `pokeData` does. -/
theorem pokeData_eq_ok {o v : Byte} {s t : State} :
    pokeData o v s = .ok t ↔ ∃ p, offsetOf o = some p ∧ t = s.ramWrite p v := by
  unfold pokeData
  cases offsetOf o <;> simp [eq_comm]

/-- What an accepted `setRegister` does. -/
theorem setRegister_eq_ok {id v : Byte} {s t : State} :
    setRegister id v s = .ok t ↔ ∃ r, registerOfId id = some r ∧ t = s.setReg r v := by
  unfold setRegister
  cases registerOfId id <;> simp [eq_comm]

/-- What an accepted `loadProgramBank` does. -/
theorem loadProgramBank_eq_ok {b : Byte} {img : Option Image} {s t : State} :
    loadProgramBank b img s = .ok t ↔ ∃ k, bankOf b = some k ∧ t = loadBank k img s := by
  unfold loadProgramBank
  cases bankOf b <;> simp [eq_comm]

/-- What an accepted `writeVram` does. -/
theorem writeVram_eq_ok {o v : Byte} {s t : State} :
    writeVram o v s = .ok t ↔ ∃ p, offsetOf o = some p ∧ t = s.vramWrite p v := by
  unfold writeVram
  cases offsetOf o <;> simp [eq_comm]

/-! ## What a transaction does to the state -/

/-- An answered write was accepted, or left the state. -/
theorem answerWrite_cases {r : Except HostError State} {s t : State} {a : Response}
    (h : answerWrite r s = .next (a, t)) : r = .ok t ∨ t = s := by
  cases r <;> cases h
  · exact .inr rfl
  · exact .inl rfl

/-- An answered read left the state. -/
theorem answerRead_state {r : Except HostError Byte} {s t : State} {a : Response}
    (h : answerRead r s = .next (a, t)) : t = s := by
  cases r <;> cases h <;> rfl

/-- `step()` answers the machine's step. -/
theorem answerStep_eq_next {o : Host.Outcome State Fault Refusal} {t : State} {a : Response} :
    answerStep o = .next (a, t) ↔ a = .done ∧ o = .next t := by
  cases o <;> simp [answerStep, eq_comm]

/-- Everything a transaction can do to `s`, form by form: the transaction and the state after it. A read and a rejected
write are `unchanged`. -/
inductive TransactEffect (s : State) : Transaction → State → Prop
  | unchanged (x : Transaction) : TransactEffect s x s
  | step {t : State} (h : Machine.step s = .next t) : TransactEffect s .step t
  | setPaused (v : Bool) : TransactEffect s (.setPaused v) (Machine.setPaused v s)
  | pokeInstruction (b o op pa od : Byte) (k : Fin 4) (hb : bankOf b = some k) (ho : o.toNat ≤ 0xFC) :
      TransactEffect s (.pokeInstruction b o op pa od) (writeSlot k o ⟨op, pa, od, 0x00⟩ s)
  | writeRom (b o v : Byte) (k : Fin 4) (p : Offset) (hb : bankOf b = some k) (ho : offsetOf o = some p) :
      TransactEffect s (.writeRom b o v) (s.romWrite k p v)
  | pokeData (o v : Byte) (p : Offset) (ho : offsetOf o = some p) : TransactEffect s (.pokeData o v) (s.ramWrite p v)
  | setDataPointer (v : Byte) : TransactEffect s (.setDataPointer v) (Machine.setDataPointer v s)
  | setRegister (id v : Byte) (r : Reg) (hr : registerOfId id = some r) :
      TransactEffect s (.setRegister id v) (s.setReg r v)
  | loadProgramBank (b : Byte) (img : Option Image) (k : Fin 4) (hb : bankOf b = some k) :
      TransactEffect s (.loadProgramBank b img) (loadBank k img s)
  | loadAllBanks (imgs : Option Images) : TransactEffect s (.loadAllBanks imgs) (Machine.loadAllBanks imgs s)
  | writeVram (o v : Byte) (p : Offset) (ho : offsetOf o = some p) : TransactEffect s (.writeVram o v) (s.vramWrite p v)
  | reset (imgs : Option Images) : TransactEffect s (.reset imgs) (resetCore Config.resetPaused imgs s)

/-- Every answered transaction has one of the effects. -/
theorem transact_effect {x : Transaction} {s t : State} {a : Response} (h : transact x s = .next (a, t)) :
    TransactEffect s x t := by
  cases x with
  | step => exact .step (answerStep_eq_next.1 h).2
  | setPaused v => cases h; exact .setPaused v
  | isPaused => cases h; exact .unchanged _
  | snapshot => cases h; exact .unchanged _
  | setDataPointer v => cases h; exact .setDataPointer v
  | loadAllBanks imgs => cases h; exact .loadAllBanks imgs
  | reset imgs => cases h; exact .reset imgs
  | readRom b o => cases answerRead_state h; exact .unchanged _
  | readData o => cases answerRead_state h; exact .unchanged _
  | readVram o => cases answerRead_state h; exact .unchanged _
  | pokeInstruction b o op pa od =>
    obtain hok | rfl := answerWrite_cases h
    · obtain ⟨k, hb, ho, rfl⟩ := pokeInstruction_eq_ok.1 hok
      exact .pokeInstruction b o op pa od k hb ho
    · exact .unchanged _
  | writeRom b o v =>
    obtain hok | rfl := answerWrite_cases h
    · obtain ⟨k, p, hb, ho, rfl⟩ := writeRom_eq_ok.1 hok
      exact .writeRom b o v k p hb ho
    · exact .unchanged _
  | pokeData o v =>
    obtain hok | rfl := answerWrite_cases h
    · obtain ⟨p, ho, rfl⟩ := pokeData_eq_ok.1 hok
      exact .pokeData o v p ho
    · exact .unchanged _
  | setRegister id v =>
    obtain hok | rfl := answerWrite_cases h
    · obtain ⟨r, hr, rfl⟩ := setRegister_eq_ok.1 hok
      exact .setRegister id v r hr
    · exact .unchanged _
  | loadProgramBank b img =>
    obtain hok | rfl := answerWrite_cases h
    · obtain ⟨k, hb, rfl⟩ := loadProgramBank_eq_ok.1 hok
      exact .loadProgramBank b img k hb
    · exact .unchanged _
  | writeVram o v =>
    obtain hok | rfl := answerWrite_cases h
    · obtain ⟨p, ho, rfl⟩ := writeVram_eq_ok.1 hok
      exact .writeVram o v p ho
    · exact .unchanged _

/-- A run of transactions is its first transaction and the run of the rest. -/
theorem runTransactions_cons_eq_next {x : Transaction} {xs : List Transaction} {s u : State} {as : List Response} :
    runTransactions (x :: xs) s = .next (as, u) ↔
      ∃ a t bs, transact x s = .next (a, t) ∧ runTransactions xs t = .next (bs, u) ∧ as = a :: bs := by
  constructor
  · intro h
    cases hx : transact x s with
    | next answer =>
      obtain ⟨a, t⟩ := answer
      cases hr : runTransactions xs t with
      | next rest =>
        simp only [runTransactions, hx, hr] at h
        cases h
        exact ⟨a, t, _, rfl, hr, rfl⟩
      | fault r => cases r
      | refused r => simp [runTransactions, hx, hr] at h
    | fault r => cases r
    | refused r => simp [runTransactions, hx] at h
  · rintro ⟨a, t, bs, hx, hr, rfl⟩
    simp only [runTransactions, hx, hr]

/-! ## The invariant -/

namespace State.Inv

variable {s t : State}

/-- The invariant speaks of the memories and the decode latch alone. -/
theorem of_eq (h : s.Inv) (hrom : t.rom = s.rom) (hram : t.ram = s.ram) (hvram : t.vram = s.vram)
    (hlatch : t.latch = s.latch) : t.Inv :=
  ⟨hrom ▸ h.rom, hram ▸ h.ram, hvram ▸ h.vram, hlatch.trans h.latch⟩

/-- One bank replaced by canonical contents. -/
theorem setBank (h : s.Inv) (b : Fin 4) {m : Memory} (hm : m.wf) : { s with rom := s.rom.set b.val m b.isLt }.Inv := by
  refine ⟨fun k => ?_, h.ram, h.vram, h.latch⟩
  rw [rom_set_get]
  split
  · exact hm
  · exact h.rom k

theorem romWrite (h : s.Inv) (b : Fin 4) (o : Offset) (v : Byte) : (s.romWrite b o v).Inv :=
  h.setBank b (Memory.wf_write v (h.rom b) o.isLt)

theorem ramWrite (h : s.Inv) (o : Offset) (v : Byte) : (s.ramWrite o v).Inv :=
  ⟨h.rom, Memory.wf_write v h.ram o.isLt, h.vram, h.latch⟩

theorem vramWrite (h : s.Inv) (o : Offset) (v : Byte) : (s.vramWrite o v).Inv :=
  ⟨h.rom, h.ram, Memory.wf_write v h.vram o.isLt, h.latch⟩

theorem romWriteOrDrop (h : s.Inv) (k : Fin 4) (n : Nat) (v : Byte) : (Machine.romWriteOrDrop k n v s).Inv := by
  unfold Machine.romWriteOrDrop
  split
  · exact h.romWrite k _ v
  · exact h

theorem writeSlot (h : s.Inv) (k : Fin 4) (o : Byte) (sl : Slot) : (Machine.writeSlot k o sl s).Inv :=
  (((h.romWriteOrDrop k _ _).romWriteOrDrop k _ _).romWriteOrDrop k _ _).romWriteOrDrop k _ _

theorem loadBank (h : s.Inv) (k : Fin 4) (img : Option Image) : (Machine.loadBank k img s).Inv :=
  h.setBank k (wf_imageMemory img)

theorem loadAllBanks (h : s.Inv) (imgs : Option Images) : (Machine.loadAllBanks imgs s).Inv :=
  (((h.loadBank 0 _).loadBank 1 _).loadBank 2 _).loadBank 3 _

/-- An instruction keeps the invariant whatever the decode latch held, since its cycle clears the latch. -/
theorem exec {i : Instr} {l : Latch} (h : s.Inv) (he : ExecEffect (s.loadLatch l) i t) : t.Inv :=
  ⟨he.rom_eq ▸ h.rom, he.ram_wf h.ram, he.vram_eq ▸ h.vram, he.latch_eq_noOp⟩

theorem step (h : s.Inv) (hs : Machine.step s = .next t) : t.Inv := by
  obtain ⟨-, rfl⟩ | ⟨-, -, ho⟩ | ⟨-, l, -, he⟩ := step_cases s hs
  · exact h
  · cases (outOfRangeFetch_eq s).symm.trans ho
    exact h.of_eq rfl rfl rfl rfl
  · exact h.exec (exec_eq_next_iff.1 he)

end State.Inv

/-- `reset` leaves the invariant from any state: every bank is loaded, and the other memories are emptied. -/
theorem resetCore_inv (p : Bool) (imgs : Option Images) (s : State) : (resetCore p imgs s).Inv := by
  refine ⟨fun b => ?_, Memory.wf_nil, Memory.wf_nil, rfl⟩
  have hb : (resetCore p imgs s).rom[b] = imageMemory (imgs.map (·[b])) := loadAllBanks_bank imgs s b
  rw [hb]
  exact wf_imageMemory _

namespace State.Inv

variable {s t : State}

theorem transact {x : Transaction} {a : Response} (h : s.Inv) (hx : Machine.transact x s = .next (a, t)) : t.Inv := by
  cases transact_effect hx with
  | unchanged => exact h
  | step hs => exact h.step hs
  | setPaused v => exact h.of_eq rfl rfl rfl rfl
  | pokeInstruction b o op pa od k hb ho => exact h.writeSlot k o _
  | writeRom b o v k p hb ho => exact h.romWrite k p v
  | pokeData o v p ho => exact h.ramWrite p v
  | setDataPointer v => exact h.of_eq rfl rfl rfl rfl
  | setRegister id v r hr => exact h.of_eq rfl rfl rfl rfl
  | loadProgramBank b img k hb => exact h.loadBank k img
  | loadAllBanks imgs => exact h.loadAllBanks imgs
  | writeVram o v p ho => exact h.vramWrite p v
  | reset imgs => exact resetCore_inv _ imgs s

theorem runTransactions {xs : List Transaction} {as : List Response} (h : s.Inv)
    (hr : Machine.runTransactions xs s = .next (as, t)) : t.Inv := by
  induction xs generalizing s as with
  | nil => cases hr; exact h
  | cons x xs ih =>
    obtain ⟨a, u, bs, hx, hxs, -⟩ := runTransactions_cons_eq_next.1 hr
    exact ih (h.transact hx) hxs

end State.Inv

/-! ## The ALU latches before a transaction -/

theorem romWriteOrDrop_withAlu (k : Fin 4) (n : Nat) (v : Byte) (s : State) (u : Alu) :
    romWriteOrDrop k n v { s with alu := u } = { romWriteOrDrop k n v s with alu := u } := by
  unfold romWriteOrDrop
  split <;> rfl

theorem writeSlot_withAlu (k : Fin 4) (o : Byte) (sl : Slot) (s : State) (u : Alu) :
    writeSlot k o sl { s with alu := u } = { writeSlot k o sl s with alu := u } := by
  simp only [writeSlot, romWriteOrDrop_withAlu]

/-- A write that carries the ALU latches along answers the same with others there. -/
theorem answerWrite_withAlu {r r' : Except HostError State} {s t : State} {a : Response} (u : Alu)
    (hr : r' = r.map fun w => { w with alu := u }) (h : answerWrite r s = .next (a, t)) :
    ∃ u', answerWrite r' { s with alu := u } = .next (a, { t with alu := u' }) := by
  subst hr
  cases r <;> cases h <;> exact ⟨u, rfl⟩

/-- A read that does not depend on the ALU latches answers the same with others there. -/
theorem answerRead_withAlu {r : Except HostError Byte} {s t : State} {a : Response} (u : Alu)
    (h : answerRead r s = .next (a, t)) :
    ∃ u', answerRead r { s with alu := u } = .next (a, { t with alu := u' }) := by
  cases r <;> cases h <;> exact ⟨u, rfl⟩

/-- A transaction does not observe the ALU latches. -/
theorem transact_withAlu {x : Transaction} {s t : State} {a : Response} (u : Alu) (h : transact x s = .next (a, t)) :
    ∃ u', transact x { s with alu := u } = .next (a, { t with alu := u' }) := by
  cases x with
  | step =>
    obtain ⟨rfl, hs⟩ := answerStep_eq_next.1 h
    obtain ⟨u', hu⟩ := step_withAlu u hs
    exact ⟨u', answerStep_eq_next.2 ⟨rfl, hu⟩⟩
  | setPaused | isPaused | setDataPointer | snapshot | loadAllBanks => cases h; exact ⟨u, rfl⟩
  | reset imgs => cases h; exact ⟨⟨0, 0, 0⟩, rfl⟩
  | readRom | readData | readVram => exact answerRead_withAlu u h
  | pokeInstruction b o op pa od =>
    refine answerWrite_withAlu u ?_ h
    unfold pokeInstruction
    cases bankOf b with
    | none => rfl
    | some k => by_cases ho : o.toNat ≤ Config.lastFetch <;> simp only [ho, ↓reduceIte, writeSlot_withAlu] <;> rfl
  | writeRom b o v =>
    refine answerWrite_withAlu u ?_ h
    unfold writeRom
    cases romAddress true b o <;> rfl
  | pokeData o v =>
    refine answerWrite_withAlu u ?_ h
    unfold pokeData
    cases offsetOf o <;> rfl
  | setRegister id v =>
    refine answerWrite_withAlu u ?_ h
    unfold setRegister
    cases registerOfId id <;> rfl
  | loadProgramBank b img =>
    refine answerWrite_withAlu u ?_ h
    unfold loadProgramBank
    cases bankOf b <;> rfl
  | writeVram o v =>
    refine answerWrite_withAlu u ?_ h
    unfold writeVram
    cases offsetOf o <;> rfl

/-- A run of transactions does not observe the ALU latches. -/
theorem runTransactions_withAlu {xs : List Transaction} {s t : State} {as : List Response} (u : Alu)
    (h : runTransactions xs s = .next (as, t)) :
    ∃ u', runTransactions xs { s with alu := u } = .next (as, { t with alu := u' }) := by
  induction xs generalizing s as u with
  | nil => cases h; exact ⟨u, rfl⟩
  | cons x xs ih =>
    obtain ⟨a, w, bs, hx, hxs, rfl⟩ := runTransactions_cons_eq_next.1 h
    obtain ⟨u₁, hx'⟩ := transact_withAlu u hx
    obtain ⟨u₂, hxs'⟩ := ih u₁ hxs
    exact ⟨u₂, runTransactions_cons_eq_next.2 ⟨a, _, bs, hx', hxs', rfl⟩⟩

end Sys2Proof.Machine
end

section
/-! PROOFS of the family 10_state: the obligations, each from the facts above. -/

namespace Sys2Proof.Proofs

open Sys2Proof.Machine

/-- Settles O41, by the cases of a step; an executed instruction writes RAM inside the array and clears the latch. -/
theorem stepKeepsTheInvariant : Obligations.StepKeepsTheInvariant :=
  fun _ _ hinv hstep => hinv.step hstep

/-- Settles O42, by the forms of a transaction's effect, and by induction over the run. -/
theorem transactionsKeepTheInvariant : Obligations.TransactionsKeepTheInvariant :=
  ⟨fun _ _ _ _ hinv hx => hinv.transact hx, fun _ _ _ _ hinv hrun => hinv.runTransactions hrun⟩

/-- Settles O8, by induction on the number of steps. -/
theorem pausedStepsChangeNothing : Obligations.PausedStepsChangeNothing := by
  intro n s hp
  induction n with
  | zero => rfl
  | succ n ih =>
    have hstep : core.step s = .next s := step_of_paused hp
    simp only [Host.Core.run, hstep, ih]

/-- Settles O12: every effect of an instruction is also one from the state with another decode latch. -/
theorem latchIsNotObservable : Obligations.LatchIsNotObservable := by
  intro i s l
  obtain ⟨t, heff, hexec⟩ := exec_effect_exists s i
  obtain ⟨_, halu, heff'⟩ := heff.withLatches l s.alu
  rw [halu rfl] at heff'
  exact (exec_eq_next_iff.2 heff').trans hexec.symm

/-- Settles O21, by the cases of the effect: ADD and LD are the writers. -/
theorem registersChangeOnlyByAddAndLd : Obligations.RegistersChangeOnlyByAddAndLd :=
  fun _ _ _ _ hexec hne => (exec_eq_next_iff.1 hexec).reg_writer hne

/-- Settles O23, item by item. -/
theorem controlStateHasTheStatedWriters : Obligations.ControlStateHasTheStatedWriters := by
  intro i s t hexec
  have heff := exec_eq_next_iff.1 hexec
  exact ⟨heff.paused_eq, heff.bank_writer, heff.ptr_writer, heff.depth_writer, heff.alu_writer⟩

/-- Settles O27: the latches are carried along or overwritten, and a run composes its transactions. -/
theorem aluLatchesAreNotObservable : Obligations.AluLatchesAreNotObservable :=
  ⟨fun _ _ u hstep => step_withAlu u hstep, fun _ _ _ _ u hx => transact_withAlu u hx,
    fun _ _ _ _ u hrun => runTransactions_withAlu u hrun⟩

/-- Settles O30: a step appends, and every other transaction but `reset` leaves the output. -/
theorem diagnosticOutputOnlyGrows : Obligations.DiagnosticOutputOnlyGrows := by
  intro x s t a hx
  cases transact_effect hx with
  | reset imgs => exact .inl ⟨imgs, rfl⟩
  | step hs => exact .inr (step_diagnostics_grow hs)
  | pokeInstruction => rw [writeSlot_keeps]; exact .inr List.prefix_rfl
  | _ => exact .inr List.prefix_rfl

/-- Settles O43, memory by memory. -/
theorem equalBytesAreEqualMemories : Obligations.EqualBytesAreEqualMemories := by
  intro s t hs ht hrom hram hvram
  refine ⟨?_, ?_, ?_⟩
  · ext1 b hb
    exact Memory.eq_of_read (hs.rom ⟨b, hb⟩) (ht.rom ⟨b, hb⟩) fun a ha => hrom ⟨b, hb⟩ ⟨a, ha⟩
  · exact Memory.eq_of_read hs.ram ht.ram fun a ha => hram ⟨a, ha⟩
  · exact Memory.eq_of_read hs.vram ht.vram fun a ha => hvram ⟨a, ha⟩

/-- Settles O48, by the forms of a transaction's effect. -/
theorem onlyStepAndResetWriteTheEngine : Obligations.OnlyStepAndResetWriteTheEngine := by
  intro x s t a hx hstep hreset
  cases transact_effect hx with
  | step => exact absurd rfl hstep
  | reset imgs => exact absurd rfl (hreset imgs)
  | pokeInstruction => rw [writeSlot_keeps]; exact ⟨rfl, rfl, rfl, rfl, rfl, rfl⟩
  | _ => exact ⟨rfl, rfl, rfl, rfl, rfl, rfl⟩

/-- Settles O5, by the five cases of a register id. -/
theorem registerIdIsTheWholeByte : Obligations.RegisterIdIsTheWholeByte :=
  fun _ => ⟨fun _ => registerOfId_eq_some, registerOfId_eq_none⟩

end Sys2Proof.Proofs
end

section
/-! PROOFS of the family 20_memory. First what the obligations share: where an instruction stores, and that an instruction
reads neither program memory nor the byte-plane, so that a step reads only the bytes it fetches. -/

namespace Sys2Proof.Machine

/-! ## The memories an instruction stores to and reads -/

/-- A byte that a RAM write changes is the one at the offset written. -/
theorem eq_of_ramRead_ne {s t : State} {o p : Offset} (v : Byte) (ht : t.ram = (s.ramWrite p v).ram)
    (hne : t.ramRead o ≠ s.ramRead o) : o = p := by
  by_contra hop
  have hread : t.ramRead o = (s.ramWrite p v).ramRead o := by simp only [State.ramRead, ht]
  exact hne (hread.trans ((ramRead_ramWrite s p o v).trans (if_neg hop)))

namespace ExecEffect

variable {s t : State} {i : Instr}

/-- RAM_SET, JUMP and RETURN are the writers of RAM, each at one offset (R64). -/
theorem ram_writer {o : Offset} (h : ExecEffect s i t) (hne : t.ramRead o ≠ s.ramRead o) :
    (∃ value, i = .ramSet value ∧ dataAddress s = some o) ∨
    (∃ target, i = .jump target ∧ o = stackSlot s.depth ∧ s.depth.val < 14) ∨
    (i = .ret ∧ o = stackSlot (topSlot s) ∧ 0 < s.depth.val) := by
  cases h with
  | ramSetInside v p hp =>
    obtain rfl : o = p := eq_of_ramRead_ne v rfl hne
    exact .inl ⟨v, rfl, hp⟩
  | jumpRoom target d hd _ => exact .inr (.inl ⟨target, rfl, eq_of_ramRead_ne s.pc rfl hne, by omega⟩)
  | retLive hd => exact .inr (.inr ⟨rfl, eq_of_ramRead_ne 0x00 rfl hne, Nat.pos_of_ne_zero hd⟩)
  | _ => exact absurd rfl hne

/-- An instruction reads neither program memory nor the byte-plane: with other contents there its effect on the rest is
the same (R62, R65). -/
theorem withRomVram (rom : Vector Memory 4) (vram : Memory) (h : ExecEffect s i t) :
    ExecEffect { s with rom := rom, vram := vram } i { t with rom := rom, vram := vram } := by
  cases h with
  | idle i h => exact .idle i h
  | jumpFull target h => exact .jumpFull target h
  | jumpRoom target d h hd => exact .jumpRoom target d h hd
  | retEmpty h => exact .retEmpty h
  | retLive h => exact .retLive h
  | add => exact .add
  | setRamPointer v => exact .setRamPointer v
  | ramSetOutside v h => exact .ramSetOutside v h
  | ramSetInside v o h => exact .ramSetInside v o h
  | ldOutside id h => exact .ldOutside id h
  | ldInvalid id o h hr => exact .ldInvalid id o h hr
  | ldInside id o r h hr => exact .ldInside id o r h hr
  | nextRomBank => exact .nextRomBank

theorem withRom (rom : Vector Memory 4) (h : ExecEffect s i t) :
    ExecEffect { s with rom := rom } i { t with rom := rom } := by
  simpa only [h.vram_eq] using h.withRomVram rom s.vram

theorem withVram (vram : Memory) (h : ExecEffect s i t) :
    ExecEffect { s with vram := vram } i { t with vram := vram } := by
  simpa only [h.rom_eq] using h.withRomVram s.rom vram

end ExecEffect

/-! ## What a step keeps, and what it fetches -/

/-- A step keeps every bank of program memory and the byte-plane (R62, R65). -/
theorem step_rom_vram_eq {s t : State} (h : step s = .next t) : t.rom = s.rom ∧ t.vram = s.vram := by
  obtain ⟨-, rfl⟩ | ⟨-, -, ho⟩ | ⟨-, l, -, he⟩ := step_cases s h
  · exact ⟨rfl, rfl⟩
  · cases (outOfRangeFetch_eq s).symm.trans ho
    exact ⟨rfl, rfl⟩
  · have heff := exec_eq_next_iff.1 he
    exact ⟨heff.rom_eq, heff.vram_eq⟩

/-- A fetch reads three bytes of the active bank, at `pc` and the two offsets after it (R91, R121). -/
theorem fetch_congr {s s' : State} (hpc : s'.pc = s.pc)
    (hrom : ∀ o : Offset, s.pc.toNat ≤ o.val → o.val ≤ s.pc.toNat + 2 → s'.romRead s'.bank o = s.romRead s.bank o) :
    fetch s' = fetch s := by
  cases hf : fetch s with
  | none => exact fetch_eq_none.2 (hpc ▸ fetch_eq_none.1 hf)
  | some l =>
    obtain ⟨o0, o1, o2, h0, h1, h2, rfl⟩ := fetch_eq_some.1 hf
    refine fetch_eq_some.2 ⟨o0, o1, o2, hpc ▸ h0, hpc ▸ h1, hpc ▸ h2, ?_⟩
    rw [hrom o0 (by omega) (by omega), hrom o1 (by omega) (by omega), hrom o2 (by omega) (by omega)]

/-- A slot written at the counter of the active bank is what the next fetch reads (R75). -/
theorem fetch_writeSlot_pc (sl : Slot) {s : State} (hpc : s.pc.toNat ≤ 0xFC) :
    fetch (writeSlot s.bank s.pc sl s) = some ⟨sl.opcode, sl.parameter, sl.operand⟩ := by
  have hkpc : (writeSlot s.bank s.pc sl s).pc = s.pc := by rw [writeSlot_keeps]
  have hkbank : (writeSlot s.bank s.pc sl s).bank = s.bank := by rw [writeSlot_keeps]
  refine fetch_eq_some.2 ⟨⟨s.pc.toNat, by omega⟩, ⟨s.pc.toNat + 1, by omega⟩, ⟨s.pc.toNat + 2, by omega⟩, ?_⟩
  simp [hkpc, hkbank, romRead_writeSlot]

end Sys2Proof.Machine
end

section
/-! PROOFS of the family 20_memory: the obligations, each from the facts above. -/

namespace Sys2Proof.Proofs

open Sys2Proof.Machine

/-- Settles O22, by the cases of the effect: RAM_SET, JUMP and RETURN are the writers. -/
theorem ramChangesOnlyWhereAnInstructionStores : Obligations.RamChangesOnlyWhereAnInstructionStores :=
  fun _ _ _ _ hexec hne => (exec_eq_next_iff.1 hexec).ram_writer hne

/-- Settles O24: a step keeps those memories, so each of their bytes. -/
theorem stepWritesNoRomAndNoVram : Obligations.StepWritesNoRomAndNoVram := by
  intro s t hstep
  obtain ⟨hrom, hvram⟩ := step_rom_vram_eq hstep
  exact ⟨fun b o => by simp only [State.romRead, hrom], fun o => by simp only [State.vramRead, hvram]⟩

/-- Settles O25: every effect of an instruction is also one from the state with another byte-plane. -/
theorem noInstructionReachesVram : Obligations.NoInstructionReachesVram := by
  intro i s t v hexec
  have heff := exec_eq_next_iff.1 hexec
  exact ⟨heff.vram_eq, exec_eq_next_iff.2 (heff.withVram v)⟩

/-- Settles O26, by the cases of a step: the fetch is the same, and an instruction does not read program memory. -/
theorem stepReadsOnlyTheFetchedBytes : Obligations.StepReadsOnlyTheFetchedBytes := by
  intro s t rom hrom hstep
  have hfetch : fetch { s with rom := rom } = fetch s := fetch_congr rfl hrom
  obtain ⟨hp, rfl⟩ | ⟨hp, hf, ho⟩ | ⟨hp, l, hf, he⟩ := step_cases s hstep
  · exact step_of_paused hp
  · cases (outOfRangeFetch_eq s).symm.trans ho
    exact step_of_fetch_none (s := { s with rom := rom }) hp (hfetch.trans hf)
  · have heff := (exec_eq_next_iff.1 he).withRom rom
    exact (step_of_fetch { s with rom := rom } hp (hfetch.trans hf)).trans (exec_eq_next_iff.2 heff)

/-- Settles O58: the poke is a slot written where the next step fetches, and an instruction does not observe the decode
latch that the fetch loads. -/
theorem nextStepRunsThePokedInstruction : Obligations.NextStepRunsThePokedInstruction := by
  intro b op pa od s hrun hpc hb
  let t := writeSlot s.bank s.pc ⟨op, pa, od, 0x00⟩ s
  have hpoke : pokeInstruction b s.pc op pa od s = .ok t :=
    pokeInstruction_eq_ok.2 ⟨s.bank, bankOf_eq_some.2 hb.symm, hpc, rfl⟩
  have hrunning : t.paused = false := (congrArg State.paused (writeSlot_keeps _ _ _ s)).trans hrun
  refine ⟨t, congrArg (answerWrite · s) hpoke, ?_⟩
  calc step t = exec (decode op pa od) (t.loadLatch ⟨op, pa, od⟩) :=
        step_of_fetch t hrunning (fetch_writeSlot_pc ⟨op, pa, od, 0x00⟩ hpc)
    _ = exec (decode op pa od) t := latchIsNotObservable (decode op pa od) t ⟨op, pa, od⟩

/-- Settles O7: a fetch above 0xFC is out of range, and its answer is the phase's own. -/
theorem outOfRangeFetchExecutesNothing : Obligations.OutOfRangeFetchExecutesNothing :=
  fun s hrun hpc => (step_of_fetch_none hrun (fetch_eq_none.2 hpc)).trans (outOfRangeFetch_eq s)

end Sys2Proof.Proofs
end

section
/-! PROOFS of the family 30_encoding. First what the obligations share: the decoder is the encoder's inverse and answers a
well-formed instruction with the opcode it read, the fields it does not read, and how a row of the opcode table meets the
word of a slot. -/

namespace Sys2Proof

/-! ## The decoder and the encoder -/

/-- Decoding the bytes of a well-formed instruction gives it back. -/
theorem decode_encode {i : Instr} (h : i.WellFormed) : decode i.opcode i.parameter i.operand = i :=
  match i with
  | .nop => Laws.DecodeBack.nop h
  | .jump target => Laws.DecodeBack.jump target h
  | .ret => Laws.DecodeBack.ret h
  | .add => Laws.DecodeBack.add h
  | .setRamPointer value => Laws.DecodeBack.setRamPointer value h
  | .ramSet value => Laws.DecodeBack.ramSet value h
  | .ld registerId => Laws.DecodeBack.ld registerId h
  | .nextRomBank => Laws.DecodeBack.nextRomBank h
  | .endMarker => Laws.DecodeBack.endMarker h
  | .unrecognized09 => Laws.DecodeBack.unrecognized09 h
  | .unrecognized0A opcode => Laws.DecodeBack.unrecognized0A opcode h
  | .unrecognized0C opcode => Laws.DecodeBack.unrecognized0C opcode h
  | .unrecognized10 opcode => Laws.DecodeBack.unrecognized10 opcode h
  | .unrecognized20 opcode => Laws.DecodeBack.unrecognized20 opcode h
  | .unrecognized40 opcode => Laws.DecodeBack.unrecognized40 opcode h
  | .unrecognized80 opcode => Laws.DecodeBack.unrecognized80 opcode h

/-- A full table word stands for the slot it was made from. -/
theorem slotOfTableWord_toWord (sl : Slot) : slotOfTableWord 32 sl.toWord.toNat = sl := by
  rw [slotOfTableWord, Nat.mod_eq_of_lt sl.toWord.isLt, BitVec.ofNat_toNat, BitVec.setWidth_eq, Slot.ofWord_toWord]

/-- A table word decodes as the bytes of its slot do. -/
theorem decodeTableWord_toWord (sl : Slot) :
    decodeTableWord 32 sl.toWord.toNat = some (decode sl.opcode sl.parameter sl.operand) := by
  rw [decodeTableWord, slotOfTableWord_toWord]; rfl

/-- Every slot decodes to a well-formed instruction with the slot's opcode (R93, R97). -/
theorem decode_wellFormed_and_opcode (op pa od : Byte) :
    (decode op pa od).WellFormed ∧ (decode op pa od).opcode = op := by
  rcases decode_cases op with ⟨h, e⟩ | ⟨h, e⟩ | ⟨h, e⟩ | ⟨h, e⟩ | ⟨h, e⟩ | ⟨h, e⟩ | ⟨h, e⟩ | ⟨h, e⟩ | ⟨h, e⟩ | ⟨h, e⟩ |
    ⟨h, e⟩ | ⟨h, e⟩ | ⟨h, e⟩ | ⟨h, e⟩ | ⟨h, e⟩ | ⟨h, e⟩ <;> rw [e]
  iterate 10 exact ⟨rfl, h.symm⟩
  all_goals exact ⟨h, rfl⟩

/-- The decoder reads the operand for opcodes 0x01, 0x04 and 0x05 alone, and the parameter for 0x06 alone (R93). -/
theorem decode_congr {op pa od pa' od' : Byte} (hod : op = 0x01 ∨ op = 0x04 ∨ op = 0x05 → od' = od)
    (hpa : op = 0x06 → pa' = pa) : decode op pa' od' = decode op pa od := by
  rcases decode_cases op with ⟨-, e⟩ | ⟨h, e⟩ | ⟨-, e⟩ | ⟨-, e⟩ | ⟨h, e⟩ | ⟨h, e⟩ | ⟨h, e⟩ | ⟨-, e⟩ | ⟨-, e⟩ | ⟨-, e⟩ |
    ⟨-, e⟩ | ⟨-, e⟩ | ⟨-, e⟩ | ⟨-, e⟩ | ⟨-, e⟩ | ⟨-, e⟩ <;> rw [e, e]
  · rw [hod (.inl h)]
  · rw [hod (.inr (.inl h))]
  · rw [hod (.inr (.inr h))]
  · rw [hpa h]

/-! ## The opcode table -/

/-- The rows of opcode_table.json, in its order. -/
def opcodeTable : List TableRow :=
  ([.nop, .jump 0, .ret, .add, .setRamPointer 0, .ramSet 0, .ld 0, .nextRomBank, .endMarker, .unrecognized09,
    .unrecognized0A 0, .unrecognized0C 0, .unrecognized10 0, .unrecognized20 0, .unrecognized40 0,
    .unrecognized80 0] : List Instr).map Instr.row

theorem Instr.row_mem_opcodeTable (i : Instr) : i.row ∈ opcodeTable := by
  cases i <;> simp [opcodeTable, Instr.row]

/-- No two rows of the table overlap: their patterns differ in a bit that both masks hold. -/
theorem opcodeTable_disjoint :
    ∀ r ∈ opcodeTable, ∀ q ∈ opcodeTable, r.pattern &&& q.mask = q.pattern &&& r.mask → r = q := by decide

theorem TableRow.matches_iff {r : TableRow} {w : BitVec 32} : r.matches w = true ↔ w &&& r.mask = r.pattern := beq_iff_eq

/-- A word matches one row at most. -/
theorem Instr.row_eq_of_matches {i j : Instr} {w : BitVec 32} (hi : i.row.matches w = true)
    (hj : j.row.matches w = true) : i.row = j.row := by
  refine opcodeTable_disjoint _ i.row_mem_opcodeTable _ j.row_mem_opcodeTable ?_
  rw [← TableRow.matches_iff.1 hi, ← TableRow.matches_iff.1 hj, BitVec.and_assoc, BitVec.and_assoc,
    BitVec.and_comm i.row.mask]

/-- The words of two slots are conjoined byte by byte. -/
theorem Slot.toWord_and_toWord (s t : Slot) : s.toWord &&& t.toWord =
    Slot.toWord ⟨s.opcode &&& t.opcode, s.parameter &&& t.parameter, s.operand &&& t.operand, s.unused &&& t.unused⟩ := by
  change (_ ++ _ ++ _ ++ _ &&& _ ++ _ ++ _ ++ _ : BitVec (8 + 8 + 8 + 8)) = _
  rw [BitVec.and_append, BitVec.and_append, BitVec.and_append]
  rfl

/-- The bits of a row's mask that cover the opcode byte (R98). -/
def TableRow.opcodeMask (r : TableRow) : Byte := (Slot.ofWord r.mask).opcode

/-- The bits of a row's pattern in the opcode byte (R98). -/
def TableRow.opcodePattern (r : TableRow) : Byte := (Slot.ofWord r.pattern).opcode

/-- A row constrains the opcode byte and no other (R93, R98). -/
theorem opcodeTable_opcodeOnly :
    ∀ r ∈ opcodeTable, r = ⟨Slot.toWord ⟨r.opcodeMask, 0, 0, 0⟩, Slot.toWord ⟨r.opcodePattern, 0, 0, 0⟩⟩ := by decide

/-- The opcode of a well-formed instruction lies in its row. -/
theorem Instr.opcode_and_opcodeMask {i : Instr} (h : i.WellFormed) :
    i.opcode &&& i.row.opcodeMask = i.row.opcodePattern := by
  cases i with
  | nop | ret | add | nextRomBank | endMarker | unrecognized09 => rfl
  | jump x | setRamPointer x | ramSet x | ld x | unrecognized0A x | unrecognized0C x | unrecognized10 x
    | unrecognized20 x | unrecognized40 x | unrecognized80 x => revert x; decide

/-- The row of a well-formed instruction matches every slot with its opcode. -/
theorem Instr.row_matches_toWord {i : Instr} {sl : Slot} (h : i.WellFormed) (hop : i.opcode = sl.opcode) :
    i.row.matches sl.toWord = true := by
  have hbits : sl.opcode &&& i.row.opcodeMask = i.row.opcodePattern := hop ▸ opcode_and_opcodeMask h
  rw [opcodeTable_opcodeOnly _ i.row_mem_opcodeTable, TableRow.matches_iff, Slot.toWord_and_toWord, hbits]
  simp

end Sys2Proof
end

section
/-! PROOFS of the family 30_encoding: the obligations, each from the facts above. -/

namespace Sys2Proof.Proofs

open Sys2Proof.Machine

/-- Settles O2: the slot's bytes and its table word decode alike, and decoding undoes encoding. -/
theorem decodeOfEncodeIsTheInstruction : Obligations.DecodeOfEncodeIsTheInstruction := by
  intro i hwf
  have hback : decode i.opcode i.parameter i.operand = i := decode_encode hwf
  exact ⟨congrArg Except.ok hback, (decodeTableWord_toWord (encode i)).trans (congrArg some hback)⟩

/-- Settles O3: the decoded instruction's row matches the slot, and no two rows match one word. -/
theorem decodePicksTheMatchingTableRow : Obligations.DecodePicksTheMatchingTableRow := by
  intro sl
  obtain ⟨hwf, hop⟩ := decode_wellFormed_and_opcode sl.opcode sl.parameter sl.operand
  have hown : (decode sl.opcode sl.parameter sl.operand).row.matches sl.toWord = true :=
    Instr.row_matches_toWord hwf hop
  exact ⟨hwf, hop, fun j => ⟨fun hj => Instr.row_eq_of_matches hj hown, fun hj => hj ▸ hown⟩⟩

/-- Settles O4: fields that differ only where the opcode does not use them decode to the same instruction. -/
theorem unusedFieldsChangeNothing : Obligations.UnusedFieldsChangeNothing :=
  fun _ _ _ _ _ s hod hpa => congrArg (exec · s) (decode_congr hod hpa)

/-- Settles O1, word by word. -/
theorem sampleSlotsDecode : Obligations.SampleSlotsDecode := by
  unfold Obligations.SampleSlotsDecode
  decide

/-- Settles O6: a fetch in range reads those three bytes, and a Running step executes what they decode to. -/
theorem stepRunsTheDecodedInstruction : Obligations.StepRunsTheDecodedInstruction := by
  intro s o0 o1 o2 i hrun h0 h1 h2 hdec
  have hfetch := fetch_eq_some.2 ⟨o0, o1, o2, h0, h1, h2, rfl⟩
  cases hdec
  exact step_of_fetch s hrun hfetch

end Sys2Proof.Proofs
end

section
/-! PROOFS of the family 40_cycle. First what the obligations share: the counter an instruction leaves, the one way it
appends an event, and that every step and every transaction answers. -/

namespace Sys2Proof.Machine

/-! ## The counter and the event of an instruction -/

theorem counterAfter_of_isIdle {i : Instr} (s : State) (h : isIdle i = true) : counterAfter i s = s.pc + 4 := by
  cases i with
  | jump | ret => cases h
  | _ => rfl

theorem diagnosticOf_of_isIdle {i : Instr} (s : State) (h : isIdle i = true) : diagnosticOf i s = none := by
  cases i with
  | jump | ret | ramSet | ld => cases h
  | _ => rfl

/-- The fetched bytes in the decode latch do not matter to the table of R125. -/
theorem counterAfter_loadLatch (i : Instr) (s : State) (l : Latch) : counterAfter i (s.loadLatch l) = counterAfter i s :=
  rfl

/-- Past the slot with one more event is the state after a refusal. -/
theorem past_raiseDiag (s : State) (k : DiagKind) : past (s.raiseDiag k) = s.refusedWith k := rfl

/-- The pointer of an effective address is not 0xFF. -/
theorem ptr_ne_of_dataAddress {s : State} {o : Offset} (h : dataAddress s = some o) : s.ptr ≠ 0xFF := fun hptr => by
  simp [dataAddress_eq_none.2 hptr] at h

namespace ExecEffect

variable {s t : State} {i : Instr}

/-- Only JUMP with room and RETURN from a live slot leave another counter than the next slot's (R125). -/
theorem pc_eq (h : ExecEffect s i t) : t.pc = counterAfter i s := by
  cases h with
  | idle i h => exact (counterAfter_of_isIdle s h).symm
  | jumpFull target h => exact (if_neg (by omega)).symm
  | jumpRoom target d h hd => exact (if_pos (by omega)).symm
  | retEmpty h => exact (if_neg (by omega)).symm
  | retLive h => exact (if_pos (Nat.pos_of_ne_zero h)).symm
  | _ => rfl

/-- An instruction appends no event, where R241 assigns it none, or is refused with the kind that R241 assigns (R129). -/
theorem completes_or_refused (h : ExecEffect s i t) :
    (t.diagnostics = s.diagnostics ∧ diagnosticOf i s = none) ∨
    ∃ k, t = s.refusedWith k ∧ diagnosticOf i s = some k := by
  cases h with
  | idle i h => exact .inl ⟨rfl, diagnosticOf_of_isIdle s h⟩
  | add | setRamPointer | nextRomBank => exact .inl ⟨rfl, rfl⟩
  | jumpFull target h => exact .inr ⟨_, past_raiseDiag s _, if_pos h⟩
  | jumpRoom target d h hd => exact .inl ⟨rfl, if_neg h⟩
  | retEmpty h => exact .inr ⟨_, past_raiseDiag s _, if_pos h⟩
  | retLive h => exact .inl ⟨rfl, if_neg h⟩
  | ramSetOutside v h => exact .inr ⟨_, past_raiseDiag s _, if_pos (dataAddress_eq_none.1 h)⟩
  | ldOutside id h => exact .inr ⟨_, past_raiseDiag s _, if_pos (dataAddress_eq_none.1 h)⟩
  | ramSetInside v o h => exact .inl ⟨rfl, if_neg (ptr_ne_of_dataAddress h)⟩
  | ldInvalid id o h hr =>
    have hid : 3 < id.toNat := registerOfId_eq_none.1 hr
    exact .inr ⟨_, past_raiseDiag s _, (if_neg (ptr_ne_of_dataAddress h)).trans (if_pos hid)⟩
  | ldInside id o r h hr =>
    have hid : ¬3 < id.toNat := fun hlt => by simp [registerOfId_eq_none.2 hlt] at hr
    exact .inl ⟨rfl, (if_neg (ptr_ne_of_dataAddress h)).trans (if_neg hid)⟩

end ExecEffect

/-! ## The step and the transactions -/

/-- No state makes a step stop (R126). -/
theorem step_exists (s : State) : ∃ t, step s = .next t := by
  cases hp : s.paused with
  | true => exact ⟨s, step_of_paused hp⟩
  | false =>
    cases hf : fetch s with
    | none => exact ⟨_, (step_of_fetch_none hp hf).trans (outOfRangeFetch_eq s)⟩
    | some l =>
      obtain ⟨t, -, hexec⟩ := exec_effect_exists (s.loadLatch l) (decode l.opcode l.parameter l.operand)
      exact ⟨t, (step_of_fetch s hp hf).trans hexec⟩

/-- A Running step whose fetch is in range has an effect of the fetched instruction. -/
theorem step_effect_of_fetched {s t : State} {i : Instr} (hp : s.paused = false) (hi : fetched s = some i)
    (h : step s = .next t) : ∃ l, ExecEffect (s.loadLatch l) i t := by
  obtain ⟨l, hf, rfl⟩ := Option.map_eq_some_iff.1 hi
  exact ⟨l, exec_eq_next_iff.1 ((step_of_fetch s hp hf).symm.trans h)⟩

theorem answerWrite_exists (r : Except HostError State) (s : State) : ∃ a t, answerWrite r s = .next (a, t) := by
  cases r <;> exact ⟨_, _, rfl⟩

theorem answerRead_exists (r : Except HostError Byte) (s : State) : ∃ a t, answerRead r s = .next (a, t) := by
  cases r <;> exact ⟨_, _, rfl⟩

/-- The transaction `step()` is one step of the machine (R211). -/
theorem transact_step_eq_next {s t : State} (h : step s = .next t) : transact .step s = .next (.done, t) :=
  answerStep_eq_next.2 ⟨rfl, h⟩

/-- No transaction stops in any state (R223). -/
theorem transact_exists (x : Transaction) (s : State) : ∃ a t, transact x s = .next (a, t) := by
  cases x with
  | step =>
    obtain ⟨t, ht⟩ := step_exists s
    exact ⟨_, t, transact_step_eq_next ht⟩
  | readRom | readData | readVram => exact answerRead_exists _ s
  | pokeInstruction | writeRom | pokeData | setRegister | loadProgramBank | writeVram => exact answerWrite_exists _ s
  | setPaused | isPaused | setDataPointer | snapshot | loadAllBanks | reset => exact ⟨_, _, rfl⟩

end Sys2Proof.Machine
end

section
/-! PROOFS of the family 40_cycle: the obligations, each from the facts above. -/

namespace Sys2Proof.Proofs

open Sys2Proof.Machine

/-- Settles O9: a pause, an out-of-range fetch and an executed instruction each answer a next state. -/
theorem everyStepHasANextState : Obligations.EveryStepHasANextState := step_exists

/-- Settles O10, by the kind of step: a pause, an out-of-range fetch, and an effect of the fetched instruction. -/
theorem counterAfterEachKindOfStep : Obligations.CounterAfterEachKindOfStep := by
  intro s
  obtain ⟨t, hstep⟩ := step_exists s
  refine ⟨t, hstep, fun hp => ?_, fun hp hpc => ?_, fun i hp hi => ?_⟩
  · cases (step_of_paused hp).symm.trans hstep
    rfl
  · cases (outOfRangeFetchExecutesNothing s hp hpc).symm.trans hstep
    rfl
  · obtain ⟨l, heff⟩ := step_effect_of_fetched hp hi hstep
    exact heff.pc_eq.trans (counterAfter_loadLatch i s l)

/-- Settles O11: the latch's no-op value is three zero bytes, and every effect leaves it. -/
theorem latchIsClearedAfterEveryInstruction : Obligations.LatchIsClearedAfterEveryInstruction :=
  fun _ _ _ hexec => (exec_eq_next_iff.1 hexec).latch_eq_noOp

/-- Settles O29: an instruction that appends an event did not complete, so it was refused. -/
theorem refusalIsAllOrNothing : Obligations.RefusalIsAllOrNothing := by
  intro i s t hexec hne
  obtain ⟨hkeep, -⟩ | hrefused := (exec_eq_next_iff.1 hexec).completes_or_refused
  · exact absurd hkeep hne
  · exact hrefused

/-- Settles O46: reads and writes answer whether accepted or rejected, and `step()` answers as the machine's step does. -/
theorem everyTransactionAnswers : Obligations.EveryTransactionAnswers := by
  refine ⟨transact_exists, fun s => ?_⟩
  obtain ⟨t, hstep⟩ := step_exists s
  exact ⟨t, hstep, transact_step_eq_next hstep⟩

end Sys2Proof.Proofs
end

section
/-! PROOFS of the family 41_nop_reserved: which opcodes decode to an idle instruction, and what an idle instruction does. -/

namespace Sys2Proof.Machine

/-- An idle instruction only advances (R140, R141, R142). -/
theorem exec_of_isIdle {i : Instr} (s : State) (h : isIdle i = true) : exec i s = .next s.idled :=
  exec_eq_next_iff.2 (.idle i h)

/-- The instructions with an effect hold the opcodes 0x01 to 0x07 (R93). -/
theorem isIdle_of_opcode {i : Instr} (h : i.opcode = 0x00 ∨ 0x08 ≤ i.opcode.toNat) : isIdle i = true := by
  cases i with
  | jump | ret | add | setRamPointer | ramSet | ld | nextRomBank => exact absurd h (by simp [Instr.opcode])
  | _ => rfl

end Sys2Proof.Machine

namespace Sys2Proof.Proofs

open Sys2Proof.Machine

/-- Settles O13: a decoded instruction keeps the slot's opcode, so it is idle, as each of the nine constructors is. -/
theorem nopAndReservedOpcodesOnlyAdvance : Obligations.NopAndReservedOpcodesOnlyAdvance := by
  intro opcode parameter operand s
  have decoded (h : opcode = 0x00 ∨ 0x08 ≤ opcode.toNat) : isIdle (decode opcode parameter operand) = true := by
    obtain ⟨-, hop⟩ := decode_wellFormed_and_opcode opcode parameter operand
    exact isIdle_of_opcode (by rwa [hop])
  exact ⟨fun h => exec_of_isIdle s (decoded h), exec_of_isIdle s rfl, exec_of_isIdle s rfl, exec_of_isIdle s rfl,
    exec_of_isIdle s rfl, exec_of_isIdle s rfl, exec_of_isIdle s rfl, exec_of_isIdle s rfl, exec_of_isIdle s rfl,
    exec_of_isIdle s rfl⟩

end Sys2Proof.Proofs
end

section
/-! PROOFS of the family 42_call_stack. First what the obligations share: JUMP with room, RETURN from a live slot, and what
keeps the live slots of the call stack. -/

namespace Sys2Proof.Machine

/-! ## The slots -/

/-- The byte at a slot is the one at RAM offset 0xF0 + `k` (R37, R150). -/
theorem eq_stackSlot_iff {o : Offset} {k : Fin 15} : o = stackSlot k ↔ o.val = 0xF0 + k.val := Fin.ext_iff

/-- A read after a write at a slot, by RAM offsets. -/
theorem ramRead_ramWrite_stackSlot (s : State) (k : Fin 15) (o : Offset) (v : Byte) :
    (s.ramWrite (stackSlot k) v).ramRead o = if o.val = 0xF0 + k.val then v else s.ramRead o := by
  simp only [ramRead_ramWrite, eq_stackSlot_iff]

/-- One above slot `k`, the slot a pop reads is `k`. -/
theorem topSlot_eq {s : State} {k : Fin 15} (h : s.depth.val = k.val + 1) : topSlot s = k :=
  Fin.ext (by rw [topSlot_val, h, Nat.add_sub_cancel])

/-! ## JUMP with room and RETURN from a live slot -/

namespace ExecEffect

variable {s t : State}

theorem jump_room {target : Byte} (h : ExecEffect s (.jump target) t) (hroom : s.depth.val < 14) :
    t.pc = target ∧ t.depth.val = s.depth.val + 1 ∧ t.diagnostics = s.diagnostics ∧
      ∀ o, t.ramRead o = if o = stackSlot s.depth then s.pc else s.ramRead o := by
  cases h with
  | idle _ hi => cases hi
  | jumpFull _ hfull => omega
  | jumpRoom _ d _ hd => exact ⟨rfl, hd, rfl, fun o => ramRead_ramWrite s _ o s.pc⟩

theorem ret_live {k : Fin 15} (h : ExecEffect s .ret t) (hk : s.depth.val = k.val + 1) :
    t.pc = s.ramRead (stackSlot k) + 4 ∧ t.depth = k ∧
      ∀ o, t.ramRead o = if o = stackSlot k then 0x00 else s.ramRead o := by
  cases h with
  | idle _ hi => cases hi
  | retEmpty hempty => omega
  | retLive _ =>
    obtain rfl := topSlot_eq hk
    exact ⟨rfl, rfl, fun o => ramRead_ramWrite s _ o 0x00⟩

end ExecEffect

/-- R155: a RETURN at the depth that a JUMP left, with the slot the JUMP wrote as it left it, goes to the slot after the
JUMP. -/
theorem return_after_jump {target : Byte} {s t u v : State} (hroom : s.depth.val < 14)
    (hjump : ExecEffect s (.jump target) t) (hdepth : u.depth = t.depth)
    (hslot : u.ramRead (stackSlot s.depth) = t.ramRead (stackSlot s.depth)) (hret : ExecEffect u .ret v) :
    v.pc = s.pc + 4 ∧ v.depth = s.depth := by
  obtain ⟨-, htdepth, -, htram⟩ := hjump.jump_room hroom
  obtain ⟨hpc, hvdepth, -⟩ := hret.ret_live (k := s.depth) (by rw [hdepth, htdepth])
  have hpushed : u.ramRead (stackSlot s.depth) = s.pc := hslot.trans ((htram _).trans (if_pos rfl))
  exact ⟨hpushed ▸ hpc, hvdepth⟩

/-! ## What keeps the call stack -/

/-- The depth and every live slot are as before. -/
def KeepsStack (s t : State) : Prop :=
  t.depth = s.depth ∧ ∀ k : Fin 15, k < s.depth → t.ramRead (stackSlot k) = s.ramRead (stackSlot k)

namespace KeepsStack

variable {s t u v : State}

theorem refl (s : State) : KeepsStack s s := ⟨rfl, fun _ _ => rfl⟩

theorem trans (hst : KeepsStack s t) (htu : KeepsStack t u) : KeepsStack s u := by
  obtain ⟨hdepth, hslots⟩ := hst
  obtain ⟨hdepth', hslots'⟩ := htu
  exact ⟨hdepth'.trans hdepth, fun k hk => (hslots' k (hdepth ▸ hk)).trans (hslots k hk)⟩

/-- JUMP and RETURN aside, an instruction can reach the call stack only by a RAM_SET into its region (R64, R277). -/
theorem of_plain {i : Instr} (h : ExecEffect s i t) (hjump : ∀ target, i ≠ .jump target) (hret : i ≠ .ret)
    (hstore : ∀ value, i = .ramSet value → s.ptr.toNat < 0xF0) : KeepsStack s t := by
  constructor
  · by_contra hne
    obtain hi | ⟨target, hi⟩ := h.depth_writer hne
    · exact hret hi
    · exact hjump target hi
  · intro k _
    by_contra hne
    obtain ⟨value, hi, haddr⟩ | ⟨target, hi, -⟩ | ⟨hi, -⟩ := h.ram_writer hne
    · have hptr : (stackSlot k).val = s.ptr.toNat := dataAddress_eq_some.1 haddr
      have hlow := hstore value hi
      rw [stackSlot_val] at hptr
      omega
    · exact hjump target hi
    · exact hret hi

/-- A call whose body keeps the call stack returns to the slot after its JUMP and keeps the call stack: the slot that it
pushes and zeroes lies above the live ones. -/
theorem of_call {target : Byte} (hroom : s.depth.val < 14) (hjump : ExecEffect s (.jump target) t)
    (hbody : KeepsStack t u) (hret : ExecEffect u .ret v) : v.pc = s.pc + 4 ∧ KeepsStack s v := by
  obtain ⟨-, htdepth, -, htram⟩ := hjump.jump_room hroom
  obtain ⟨hudepth, huslots⟩ := hbody
  have live {k : Fin 15} (hk : k ≤ s.depth) : k < t.depth := by
    rw [Fin.lt_def, htdepth]
    exact Nat.lt_succ_of_le hk
  obtain ⟨hpc, hvdepth⟩ := return_after_jump hroom hjump hudepth (huslots s.depth (live le_rfl)) hret
  obtain ⟨-, -, hvram⟩ := hret.ret_live (k := s.depth) (by rw [hudepth, htdepth])
  refine ⟨hpc, hvdepth, fun k hk => ?_⟩
  have hne : stackSlot k ≠ stackSlot s.depth := fun he => hk.ne (stackSlot_inj.1 he)
  calc v.ramRead (stackSlot k) = u.ramRead (stackSlot k) := (hvram _).trans (if_neg hne)
    _ = t.ramRead (stackSlot k) := huslots k (live hk.le)
    _ = s.ramRead (stackSlot k) := (htram _).trans (if_neg hne)

end KeepsStack

/-- A balanced run keeps the call stack, by induction on the run. -/
theorem BalancedRun.keepsStack {s t : State} (h : BalancedRun s t) : KeepsStack s t := by
  induction h with
  | done s => exact .refl s
  | plain i notJump notReturn noStackStore run _ ih =>
    exact (KeepsStack.of_plain (exec_eq_next_iff.1 run) notJump notReturn noStackStore).trans ih
  | call target room jump _ ret _ ihBody ihRest =>
    obtain ⟨-, hcall⟩ := KeepsStack.of_call room (exec_eq_next_iff.1 jump) ihBody (exec_eq_next_iff.1 ret)
    exact hcall.trans ihRest

/-! ## JUMPs in a row -/

theorem execAll_cons {i : Instr} {s t : State} (is : List Instr) (h : exec i s = .next t) :
    execAll (i :: is) s = execAll is t := by
  simp only [execAll, h]

/-- JUMPs in a row that the stack has room for each add one to the depth and append no event. -/
theorem execAll_jumps (targets : List Byte) {s : State} (hroom : s.depth.val + targets.length ≤ 14) :
    ∃ t, execAll (targets.map Instr.jump) s = .next t ∧ t.depth.val = s.depth.val + targets.length ∧
      t.diagnostics = s.diagnostics := by
  induction targets generalizing s with
  | nil => exact ⟨s, rfl, rfl, rfl⟩
  | cons target targets ih =>
    rw [List.length_cons] at hroom
    obtain ⟨t, heff, hexec⟩ := exec_effect_exists s (.jump target)
    obtain ⟨-, hdepth, hdiag, -⟩ := heff.jump_room (by omega)
    obtain ⟨u, hrun, hdepth', hdiag'⟩ := ih (s := t) (by omega)
    refine ⟨u, (execAll_cons _ hexec).trans hrun, ?_, hdiag'.trans hdiag⟩
    rw [List.length_cons]
    omega

end Sys2Proof.Machine
end

section
/-! PROOFS of the family 42_call_stack: the obligations, each from the facts above. -/

namespace Sys2Proof.Proofs

open Sys2Proof.Machine

/-- Settles O34: a balanced run keeps the call stack, and so does the body of the call around it. -/
theorem balancedRunKeepsTheCallStack : Obligations.BalancedRunKeepsTheCallStack := by
  refine ⟨fun _ _ hrun => hrun.keepsStack, fun target s t u v hroom hjump hbody hret => ?_⟩
  obtain ⟨hpc, hdepth, -⟩ :=
    KeepsStack.of_call hroom (exec_eq_next_iff.1 hjump) hbody.keepsStack (exec_eq_next_iff.1 hret)
  exact ⟨hpc, hdepth⟩

/-- Settles O33: the slot that the RETURN pops still holds the JUMP's own address. -/
theorem returnGoesToTheSlotAfterTheJump : Obligations.ReturnGoesToTheSlotAfterTheJump := by
  intro target s t u hroom hjump hdepth hslot
  have hjumped := exec_eq_next_iff.1 hjump
  obtain ⟨hpc, -⟩ := hjumped.jump_room hroom
  obtain ⟨v, hreturned, hret⟩ := exec_effect_exists u .ret
  exact ⟨hpc, v, hret, return_after_jump hroom hjumped hdepth hslot hreturned⟩

/-- Settles O35: the effective address of LD and RAM_SET is the slot itself, and a RETURN pops what RAM_SET left there. -/
theorem stackSlotsAreRamBytes : Obligations.StackSlotsAreRamBytes := by
  intro s k hptr
  have haddr : dataAddress s = some (stackSlot k) := dataAddress_eq_some.2 hptr.symm
  refine ⟨fun id r hr => ⟨_, execLd_inside s id haddr hr, RegisterFile.get_set_same _ _ _⟩, fun value => ?_⟩
  let t := past (s.ramWrite (stackSlot k) value)
  have hset : exec (.ramSet value) s = .next t := exec_eq_next_iff.2 (.ramSetInside value _ haddr)
  have hstored : t.ramRead (stackSlot k) = value := (ramRead_ramWrite s _ _ value).trans (if_pos rfl)
  refine ⟨t, hset, hstored, fun hdepth => ?_⟩
  obtain ⟨u, heff, hret⟩ := exec_effect_exists t .ret
  obtain ⟨hpc, -⟩ := heff.ret_live (k := k) hdepth
  exact ⟨u, hret, by rw [hpc, hstored]⟩

/-- Settles O36: fourteen JUMPs fill the stack, and a JUMP at depth 14 is refused. -/
theorem fifteenthNestedJumpIsRefused : Obligations.FifteenthNestedJumpIsRefused := by
  intro targets last s hlength hempty
  obtain ⟨t, hrun, hdepth, hdiag⟩ := execAll_jumps targets (s := s) (by omega)
  have hfull : t.depth.val = 14 := by rw [hdepth, hlength, hempty]
  exact ⟨t, _, hrun, hfull, hdiag, execJump_full t last hfull, rfl, fun _ => rfl, rfl, rfl⟩

/-- Settles O14, by whether the stack has room. -/
theorem jumpPushesItsOwnAddressAndGoesToTheTarget : Obligations.JumpPushesItsOwnAddressAndGoesToTheTarget := by
  intro parameter target s
  refine ⟨rfl, fun hroom => ?_, execJump_full s target⟩
  obtain ⟨d, hd, hexec⟩ := execJump_room s target hroom.ne
  exact ⟨_, hexec, rfl, hd, fun o => ramRead_ramWrite s _ o s.pc⟩

/-- Settles O15, by whether the stack holds an entry. -/
theorem returnPopsAndGoesPastTheCall : Obligations.ReturnPopsAndGoesPastTheCall := by
  intro parameter operand s
  refine ⟨rfl, fun hlive => ?_, execReturn_empty s⟩
  exact ⟨_, execReturn_live s hlive.ne', rfl, rfl, fun o => ramRead_ramWrite s _ o 0x00⟩

/-- Settles O31, by whether the stack has room. -/
theorem pushWritesTheSlotOfTheDepth : Obligations.PushWritesTheSlotOfTheDepth := by
  intro address s
  refine ⟨push_eq_none.2, fun hroom => ⟨by omega, ?_⟩⟩
  have hd : s.depth.val + 1 < 15 := by omega
  exact ⟨_, push_eq_some.2 ⟨hroom, ⟨_, hd⟩, rfl, rfl⟩, rfl, rfl, fun o => ramRead_ramWrite_stackSlot s _ o address⟩

/-- Settles O32, by whether the stack holds an entry. -/
theorem popReadsAndZeroesTheTopSlot : Obligations.PopReadsAndZeroesTheTopSlot := by
  intro s
  refine ⟨pop_eq_none.2, fun hlive => ⟨by omega, _, _, pop_eq_some.2 ⟨hlive, rfl, rfl⟩, rfl, rfl, fun o ho => ?_, ?_⟩⟩
  · have htop : o = stackSlot (topSlot s) := eq_stackSlot_iff.2 ho
    rw [htop]
  · exact fun o => ramRead_ramWrite_stackSlot s _ o 0x00

end Sys2Proof.Proofs
end

section
/-! PROOFS of the family 43_arithmetic: ADD writes C alone, so a read of each register follows from the register file's rules. -/

namespace Sys2Proof.Proofs

open Sys2Proof.Machine

/-- Settles O16: the state after ADD holds the sum in C and, in each other register, what it held before. -/
theorem addWritesTheSumToC : Obligations.AddWritesTheSumToC := by
  intro parameter operand s
  have hother {q : Reg} (hq : q ≠ .C) : (s.setReg .C (s.reg .A + s.reg .B)).reg q = s.reg q :=
    RegisterFile.get_set_other s.regs _ hq
  have hsum : (s.setReg .C (s.reg .A + s.reg .B)).reg .C = s.reg .A + s.reg .B := RegisterFile.get_set_same s.regs .C _
  refine ⟨rfl, _, execAdd_eq s, rfl, ?_, hother (by decide), hother (by decide), hother (by decide)⟩
  exact (congrArg BitVec.toNat hsum).trans (BitVec.toNat_add _ _)

end Sys2Proof.Proofs
end

section
/-! PROOFS of the family 44_data_memory: the effective address decides whether RAM_SET and LD are refused, and then, for LD,
the register id. -/

namespace Sys2Proof.Proofs

open Sys2Proof.Machine

/-- Settles O17: no condition guards the pointer, so 0xFF is accepted like every other value. -/
theorem setRamPointerSetsThePointer : Obligations.SetRamPointerSetsThePointer :=
  fun _ value s => ⟨rfl, execSetRamPointer_eq s value⟩

/-- Settles O18, by whether the effective address exists. -/
theorem ramSetStoresAtThePointer : Obligations.RamSetStoresAtThePointer := by
  intro parameter value s
  refine ⟨rfl, fun a ha => ?_, fun hptr => execRamSet_outside s value (dataAddress_eq_none.2 hptr)⟩
  have haddr : dataAddress s = some a := dataAddress_eq_some.2 ha
  exact ⟨haddr, _, execRamSet_inside s value haddr, rfl, fun o => ramRead_ramWrite s a o value⟩

/-- Settles O19, by whether the effective address exists and then whether the id names a register, the order of R244. -/
theorem ldCopiesTheByteAtThePointer : Obligations.LdCopiesTheByteAtThePointer := by
  intro registerId operand s
  refine ⟨rfl, fun a r ha hid => ?_, fun hptr => execLd_outside s registerId (dataAddress_eq_none.2 hptr),
    fun hptr hid => ?_⟩
  · have haddr : dataAddress s = some a := dataAddress_eq_some.2 ha
    have hreg : registerOfId registerId = some r := registerOfId_eq_some.2 hid
    exact ⟨_, execLd_inside s registerId haddr hreg, rfl, fun q => RegisterFile.get_set s.regs q r (s.ramRead a)⟩
  · obtain ⟨a, haddr⟩ := Option.ne_none_iff_exists'.1 (mt dataAddress_eq_none.1 hptr)
    exact execLd_invalid s registerId haddr (registerOfId_eq_none.2 hid)

end Sys2Proof.Proofs
end

section
/-! PROOFS of the family 45_bank_switch. First what the obligations share: a step that fetches NEXT_ROM_BANK, and a run of them,
each in the next bank at the next slot. -/

namespace Sys2Proof.Machine

/-- The state `k` banks and `k` slots further on, each sum modulo its size (R10, R200). -/
def banksOn (s : State) (k : Nat) : State :=
  { s with bank := s.bank + Fin.ofNat 4 k, pc := s.pc + BitVec.ofNat 8 (4 * k) }

theorem banksOn_zero (s : State) : banksOn s 0 = s := by simp [banksOn]

theorem banksOn_banksOn (s : State) (j k : Nat) : banksOn (banksOn s j) k = banksOn s (j + k) := by
  have hbank : s.bank + Fin.ofNat 4 j + Fin.ofNat 4 k = s.bank + Fin.ofNat 4 (j + k) := by
    ext; simp [Fin.val_add, Nat.add_assoc]
  have hpc : s.pc + BitVec.ofNat 8 (4 * j) + BitVec.ofNat 8 (4 * k) = s.pc + BitVec.ofNat 8 (4 * (j + k)) := by
    rw [BitVec.add_assoc, ← BitVec.ofNat_add, Nat.mul_add]
  simp only [banksOn, hbank, hpc]

/-- Four banks on is the starting bank. -/
theorem banksOn_four_bank (s : State) : (banksOn s 4).bank = s.bank := add_zero s.bank

theorem banksOn_loadLatch (s : State) (l : Latch) (k : Nat) : banksOn (s.loadLatch l) k = (banksOn s k).loadLatch l := rfl

/-- One bank on and then `k` more, whatever is in the latch between. -/
theorem banksOn_one_loadLatch (s : State) (l : Latch) (k : Nat) :
    banksOn ((banksOn s 1).loadLatch l) k = (banksOn s (k + 1)).loadLatch l := by
  rw [banksOn_loadLatch, banksOn_banksOn, Nat.add_comm]

/-- A fetch does not read the decode latch. -/
theorem fetched_loadLatch (s : State) (l : Latch) : fetched (s.loadLatch l) = fetched s := rfl

/-- NEXT_ROM_BANK goes on by one bank and one slot, with the latch cleared. -/
theorem exec_nextRomBank (s : State) : exec .nextRomBank s = .next ((banksOn s 1).loadLatch Latch.noOp) :=
  execNextRomBank_eq s

/-- A Running step that fetches NEXT_ROM_BANK. -/
theorem step_of_fetched_nextRomBank {s : State} (hp : s.paused = false) (hi : fetched s = some .nextRomBank) :
    step s = .next ((banksOn s 1).loadLatch Latch.noOp) := by
  obtain ⟨l, hf, hdec⟩ := Option.map_eq_some_iff.1 hi
  rw [step_of_fetch s hp hf, hdec]
  exact exec_nextRomBank (s.loadLatch l)

/-- A first step of the machine that answers a state leaves the rest of the run to it. -/
theorem run_succ_of_step {s t : State} (n : Nat) (h : step s = .next t) : core.run (n + 1) s = core.run n t := by
  have hstep : core.step s = .next t := h
  simp only [Host.Core.run, hstep]

/-- A run that fetches NEXT_ROM_BANK in each bank it comes to goes on by one bank and one slot per step. -/
theorem run_nextRomBanks (n : Nat) {s : State} (hp : s.paused = false)
    (hall : ∀ k < n, fetched (banksOn s k) = some .nextRomBank) :
    ∃ l, core.run n s = .next ((banksOn s n).loadLatch l) := by
  induction n generalizing s with
  | zero => exact ⟨s.latch, by rw [banksOn_zero]; rfl⟩
  | succ n ih =>
    have hfirst : fetched s = some .nextRomBank := banksOn_zero s ▸ hall 0 n.succ_pos
    have hrest (k : Nat) (hk : k < n) :
        fetched (banksOn ((banksOn s 1).loadLatch Latch.noOp) k) = some .nextRomBank := by
      rw [banksOn_one_loadLatch, fetched_loadLatch]
      exact hall (k + 1) (Nat.succ_lt_succ hk)
    obtain ⟨l, hrun⟩ := ih (s := (banksOn s 1).loadLatch Latch.noOp) hp hrest
    rw [banksOn_one_loadLatch] at hrun
    exact ⟨l, (run_succ_of_step n (step_of_fetched_nextRomBank hp hfirst)).trans hrun⟩

end Sys2Proof.Machine
end

section
/-! PROOFS of the family 45_bank_switch: the obligations, each from the facts above. -/

namespace Sys2Proof.Proofs

open Sys2Proof.Machine

/-- Settles O38: the run of four goes on by four banks, which is none, and by four slots; program memory is not written. -/
theorem fourBankSwitchesReturnToTheBank : Obligations.FourBankSwitchesReturnToTheBank := by
  intro s hp hall
  have hbanks (k : Nat) (hk : k < 4) : fetched (banksOn s k) = some .nextRomBank := by
    have hindex : Fin.ofNat 4 k = ⟨k, hk⟩ := Fin.ext (Nat.mod_eq_of_lt hk)
    rw [banksOn, hindex]
    exact hall ⟨k, hk⟩
  obtain ⟨l, hrun⟩ := run_nextRomBanks 4 hp hbanks
  exact ⟨_, hrun, banksOn_four_bank s, rfl, rfl⟩

/-- Settles O39: the step answers the state one bank and one slot on, and a fetch in range reads its three bytes. -/
theorem nextFetchReadsTheNewBank : Obligations.NextFetchReadsTheNewBank := by
  intro s hp hi
  refine ⟨_, step_of_fetched_nextRomBank hp hi, Fin.val_add s.bank 1, BitVec.toNat_add s.pc 4,
    fun o0 o1 o2 h0 h1 h2 => ?_⟩
  exact congrArg (Option.map _) (fetch_eq_some.2 ⟨o0, o1, o2, h0, h1, h2, rfl⟩)

/-- Settles O20: opcode 7 decodes to NEXT_ROM_BANK from its opcode byte alone, and the bank index is a sum modulo 4. -/
theorem nextRomBankAdvancesTheBank : Obligations.NextRomBankAdvancesTheBank :=
  fun _ _ s => ⟨rfl, _, exec_nextRomBank s, rfl, Fin.val_add s.bank 1⟩

end Sys2Proof.Proofs
end

section
/-! PROOFS of the family 48_host_interface. First what the obligations share: the response of a transaction from the answer of
its operation, what each operation rejects, and what it leaves of program memory and of `paused`. -/

namespace Sys2Proof.Machine

/-! ## The response of a write and of a read -/

theorem answerWrite_of_ok {r : Except HostError State} {s t : State} (h : r = .ok t) :
    answerWrite r s = .next (.ok, t) := by
  rw [h]; rfl

theorem answerWrite_of_error {r : Except HostError State} {s : State} {k : HostError} (h : r = .error k) :
    answerWrite r s = .next (.hostError k, s) := by
  rw [h]; rfl

theorem answerRead_of_ok {r : Except HostError Byte} {s : State} {v : Byte} (h : r = .ok v) :
    answerRead r s = .next (.byte v, s) := by
  rw [h]; rfl

theorem answerRead_of_error {r : Except HostError Byte} {s : State} {k : HostError} (h : r = .error k) :
    answerRead r s = .next (.hostError k, s) := by
  rw [h]; rfl

/-- A write that answers HOST_ERROR was rejected (R222). -/
theorem answerWrite_hostError_state {r : Except HostError State} {s t : State} {k : HostError}
    (h : answerWrite r s = .next (.hostError k, t)) : t = s := by
  cases r <;> cases h
  rfl

/-! ## The checks of a poke of program memory, the bank first (R213) -/

/-- Every byte up to 3 names a bank. -/
theorem bankOf_exists {b : Byte} (hb : b.toNat ≤ 3) : ∃ k, bankOf b = some k :=
  Option.ne_none_iff_exists'.1 (mt bankOf_eq_none.1 (Nat.not_lt_of_ge hb))

theorem pokeInstruction_invalidBank {b : Byte} (o op pa od : Byte) (s : State) (hb : bankOf b = none) :
    pokeInstruction b o op pa od s = .error .invalidBank := by
  simp only [pokeInstruction, hb]

theorem pokeInstruction_outOfRange {b o : Byte} {k : Fin 4} (op pa od : Byte) (s : State) (hb : bankOf b = some k)
    (ho : 0xFC < o.toNat) : pokeInstruction b o op pa od s = .error .outOfRange := by
  simp only [pokeInstruction, hb]
  exact if_neg (Nat.not_le_of_gt ho)

/-! ## The byte that a bank and an offset name (R214) -/

theorem romAddress_valid (write : Bool) {b o : Byte} {k : Fin 4} {a : Offset} (hb : bankOf b = some k)
    (ho : offsetOf o = some a) : romAddress write b o = .ok (k, a) := by
  simp only [romAddress, hb, ho]

theorem romAddress_invalidBank (write : Bool) {b o : Byte} {a : Offset} (hb : bankOf b = none)
    (ho : offsetOf o = some a) : romAddress write b o = .error .invalidBank := by
  simp only [romAddress, hb, ho]

theorem romAddress_outOfRange (write : Bool) {b o : Byte} {k : Fin 4} (hb : bankOf b = some k)
    (ho : offsetOf o = none) : romAddress write b o = .error .outOfRange := by
  simp only [romAddress, hb, ho]

/-- Where both are invalid the free choice is between the two kinds of the two checks (log entry 6). -/
theorem romAddress_bothInvalid (write : Bool) {b o : Byte} (hb : bankOf b = none) (ho : offsetOf o = none) :
    ∃ e, e ≠ .invalidRegister ∧ romAddress write b o = .error e := by
  simp only [romAddress, hb, ho]
  cases Config.romErrorIsBank write b o
  · exact ⟨.outOfRange, by decide, rfl⟩
  · exact ⟨.invalidBank, by decide, rfl⟩

theorem transact_readRom_ok {b o : Byte} {k : Fin 4} {a : Offset} (s : State) (h : romAddress false b o = .ok (k, a)) :
    transact (.readRom b o) s = .next (.byte (s.romRead k a), s) :=
  answerRead_of_ok (by simp only [readRom, h])

theorem transact_readRom_error {b o : Byte} {e : HostError} (s : State) (h : romAddress false b o = .error e) :
    transact (.readRom b o) s = .next (.hostError e, s) :=
  answerRead_of_error (by simp only [readRom, h])

theorem transact_writeRom_error {b o : Byte} {e : HostError} (v : Byte) (s : State)
    (h : romAddress true b o = .error e) : transact (.writeRom b o v) s = .next (.hostError e, s) :=
  answerWrite_of_error (by simp only [writeRom, h])

/-! ## The operations with one operand to check -/

theorem readData_inside {o : Byte} {a : Offset} (s : State) (ho : offsetOf o = some a) :
    readData o s = .ok (s.ramRead a) := by
  simp only [readData, ho]

theorem readData_outside {o : Byte} (s : State) (ho : offsetOf o = none) : readData o s = .error .outOfRange := by
  simp only [readData, ho]

theorem pokeData_outside {o : Byte} (v : Byte) (s : State) (ho : offsetOf o = none) :
    pokeData o v s = .error .outOfRange := by
  simp only [pokeData, ho]

theorem readVram_inside {o : Byte} {a : Offset} (s : State) (ho : offsetOf o = some a) :
    readVram o s = .ok (s.vramRead a) := by
  simp only [readVram, ho]

theorem readVram_outside {o : Byte} (s : State) (ho : offsetOf o = none) : readVram o s = .error .outOfRange := by
  simp only [readVram, ho]

theorem writeVram_outside {o : Byte} (v : Byte) (s : State) (ho : offsetOf o = none) :
    writeVram o v s = .error .outOfRange := by
  simp only [writeVram, ho]

theorem setRegister_invalid {id : Byte} (v : Byte) (s : State) (hr : registerOfId id = none) :
    setRegister id v s = .error .invalidRegister := by
  simp only [setRegister, hr]

theorem loadProgramBank_invalid {b : Byte} (img : Option Image) (s : State) (hb : bankOf b = none) :
    loadProgramBank b img s = .error .invalidBank := by
  simp only [loadProgramBank, hb]

/-! ## Program memory after all banks are loaded -/

/-- A byte after all banks are loaded is its image's (R220). -/
theorem romRead_loadAllBanks (imgs : Option Images) (s : State) (j : Fin 4) (o : Offset) :
    (loadAllBanks imgs s).romRead j o = imageByte imgs j o := by
  rw [State.romRead, loadAllBanks_bank, read_imageMemory]
  cases imgs <;> rfl

/-! ## Who writes `paused` -/

/-- A step keeps `paused` (R126). -/
theorem step_paused_eq {s t : State} (h : step s = .next t) : t.paused = s.paused := by
  obtain ⟨-, rfl⟩ | ⟨-, -, ho⟩ | ⟨-, l, -, he⟩ := step_cases s h
  · rfl
  · cases (outOfRangeFetch_eq s).symm.trans ho
    rfl
  · exact (exec_eq_next_iff.1 he).paused_eq

/-- `setPaused` and `reset` are the writers of `paused` (R212, R270). -/
theorem TransactEffect.paused_writer {x : Transaction} {s t : State} (h : TransactEffect s x t)
    (hne : t.paused ≠ s.paused) : x = .setPaused t.paused ∨ ∃ imgs, x = .reset imgs := by
  cases h with
  | setPaused v => exact .inl rfl
  | reset imgs => exact .inr ⟨imgs, rfl⟩
  | step hs => exact absurd (step_paused_eq hs) hne
  | pokeInstruction => exact absurd (congrArg State.paused (writeSlot_keeps _ _ _ s)) hne
  | _ => exact absurd rfl hne

/-! ## The read transactions (R224) -/

/-- A transaction that only reads. -/
def Transaction.IsRead (x : Transaction) : Prop :=
  x = .isPaused ∨ x = .snapshot ∨ (∃ b o, x = .readRom b o) ∨ (∃ o, x = .readData o) ∨ ∃ o, x = .readVram o

/-- A read leaves the state, whether it answers a byte or HOST_ERROR. -/
theorem Transaction.IsRead.state_eq {x : Transaction} {s t : State} {a : Response} (hread : x.IsRead)
    (h : transact x s = .next (a, t)) : t = s := by
  obtain rfl | rfl | ⟨b, o, rfl⟩ | ⟨o, rfl⟩ | ⟨o, rfl⟩ := hread
  · cases h; rfl
  · cases h; rfl
  · exact answerRead_state h
  · exact answerRead_state h
  · exact answerRead_state h

end Sys2Proof.Machine
end

section
/-! PROOFS of the family 48_host_interface: the obligations, each from the facts above. -/

namespace Sys2Proof.Proofs

open Sys2Proof.Machine

/-- Settles O47, by the forms of a transaction's effect. -/
theorem pausedIsTheHosts : Obligations.PausedIsTheHosts :=
  ⟨fun _ _ => ⟨rfl, rfl⟩, fun _ _ _ _ hx hne => (transact_effect hx).paused_writer hne⟩

/-- Settles O49: the bank is checked before the offset, and an accepted poke is a slot with a zero padding byte. -/
theorem pokeInstructionWritesOneSlot : Obligations.PokeInstructionWritesOneSlot := by
  intro b o op pa od s
  refine ⟨fun hb => ?_, fun hb ho => ?_, fun hb ho => ?_⟩
  · exact answerWrite_of_error (pokeInstruction_invalidBank o op pa od s (bankOf_eq_none.2 hb))
  · obtain ⟨bank, hbank⟩ := bankOf_exists hb
    exact answerWrite_of_error (pokeInstruction_outOfRange op pa od s hbank ho)
  · obtain ⟨bank, hbank⟩ := bankOf_exists hb
    refine ⟨_, answerWrite_of_ok (pokeInstruction_eq_ok.2 ⟨bank, hbank, ho, rfl⟩), writeSlot_keeps bank o _ s,
      fun k p => ?_⟩
    rw [← bankOf_eq_some.1 hbank]
    simp only [← Fin.ext_iff, ne_eq]
    exact romRead_writeSlot bank k o p ⟨op, pa, od, 0x00⟩ s

/-- Settles O50, by which of the bank and the offset exist. -/
theorem romIsReadAndWrittenByBankAndOffset : Obligations.RomIsReadAndWrittenByBankAndOffset := by
  intro b o v s
  refine ⟨fun k a hk ha => ?_, fun hb ho => ?_, fun hb ho => ?_, fun hb ho => ?_⟩
  · have hbank : bankOf b = some k := bankOf_eq_some.2 hk
    have hoff : offsetOf o = some a := offsetOf_eq_some.2 ha
    exact ⟨transact_readRom_ok s (romAddress_valid false hbank hoff), _,
      answerWrite_of_ok (writeRom_eq_ok.2 ⟨k, a, hbank, hoff, rfl⟩), rfl, fun j p => romRead_romWrite s k j a p v⟩
  · have hbank : bankOf b = none := bankOf_eq_none.2 hb
    obtain ⟨a, hoff⟩ := Option.ne_none_iff_exists'.1 (mt offsetOf_eq_none.1 ho)
    exact ⟨transact_readRom_error s (romAddress_invalidBank false hbank hoff),
      transact_writeRom_error v s (romAddress_invalidBank true hbank hoff)⟩
  · obtain ⟨bank, hbank⟩ := bankOf_exists hb
    have hoff : offsetOf o = none := offsetOf_eq_none.2 ho
    exact ⟨transact_readRom_error s (romAddress_outOfRange false hbank hoff),
      transact_writeRom_error v s (romAddress_outOfRange true hbank hoff)⟩
  · have hbank : bankOf b = none := bankOf_eq_none.2 hb
    have hoff : offsetOf o = none := offsetOf_eq_none.2 ho
    obtain ⟨e, he, hread⟩ := romAddress_bothInvalid false hbank hoff
    obtain ⟨e', he', hwrite⟩ := romAddress_bothInvalid true hbank hoff
    exact ⟨⟨e, he, transact_readRom_error s hread⟩, e', he', transact_writeRom_error v s hwrite⟩

/-- Settles O51, by whether the offset exists. -/
theorem pokeDataWritesOneRamByte : Obligations.PokeDataWritesOneRamByte := by
  intro o v s
  refine ⟨fun a ha => ?_, fun ho => ?_⟩
  · have hoff : offsetOf o = some a := offsetOf_eq_some.2 ha
    exact ⟨answerRead_of_ok (readData_inside s hoff), _, answerWrite_of_ok (pokeData_eq_ok.2 ⟨a, hoff, rfl⟩), rfl,
      fun p => ramRead_ramWrite s a p v⟩
  · have hoff : offsetOf o = none := offsetOf_eq_none.2 ho
    exact ⟨answerRead_of_error (readData_outside s hoff), answerWrite_of_error (pokeData_outside v s hoff)⟩

/-- Settles O52, by whether the offset exists. -/
theorem vramIsReadAndWrittenByTheHost : Obligations.VramIsReadAndWrittenByTheHost := by
  intro o v s
  refine ⟨fun a ha => ?_, fun ho => ?_⟩
  · have hoff : offsetOf o = some a := offsetOf_eq_some.2 ha
    exact ⟨answerRead_of_ok (readVram_inside s hoff), _, answerWrite_of_ok (writeVram_eq_ok.2 ⟨a, hoff, rfl⟩), rfl,
      fun p => vramRead_vramWrite s a p v⟩
  · have hoff : offsetOf o = none := offsetOf_eq_none.2 ho
    exact ⟨answerRead_of_error (readVram_outside s hoff), answerWrite_of_error (writeVram_outside v s hoff)⟩

/-- Settles O53: no condition guards the pointer, and the id decides whether `setRegister` is rejected. -/
theorem hostSetsPointerAndRegisters : Obligations.HostSetsPointerAndRegisters := by
  intro id v s
  refine ⟨rfl, fun r hr => ?_, fun hid => ?_⟩
  · have hreg : registerOfId id = some r := registerOfId_eq_some.2 hr
    exact ⟨_, answerWrite_of_ok (setRegister_eq_ok.2 ⟨r, hreg, rfl⟩), rfl, fun q => RegisterFile.get_set s.regs q r v⟩
  · exact answerWrite_of_error (setRegister_invalid v s (registerOfId_eq_none.2 hid))

/-- Settles O55: a load replaces the contents of a bank by those of its image. -/
theorem loadWritesWholeBanks : Obligations.LoadWritesWholeBanks := by
  intro b img imgs s
  refine ⟨fun hb => ?_, fun k hk => ?_, _, rfl, rfl, romRead_loadAllBanks imgs s⟩
  · exact answerWrite_of_error (loadProgramBank_invalid img s (bankOf_eq_none.2 hb))
  · have hbank : bankOf b = some k := bankOf_eq_some.2 hk
    refine ⟨_, answerWrite_of_ok (loadProgramBank_eq_ok.2 ⟨k, hbank, rfl⟩), rfl,
      fun j o => (romRead_loadBank k j img o s).trans ?_⟩
    exact congrArg (if j = k then · else s.romRead j o) (read_imageMemory img o)

/-- Settles O56: only a read or a write that checks its operands answers HOST_ERROR, and both then leave the state. -/
theorem hostErrorsChangeNothing : Obligations.HostErrorsChangeNothing := by
  intro x s t k hx
  cases x with
  | readRom | readData | readVram => exact answerRead_state hx
  | pokeInstruction | writeRom | pokeData | setRegister | loadProgramBank | writeVram =>
    exact answerWrite_hostError_state hx
  | step => cases (answerStep_eq_next.1 hx).1
  | setPaused | isPaused | setDataPointer | snapshot | loadAllBanks | reset => cases hx

/-- Settles O57, by induction over the run. -/
theorem readTransactionsChangeNothing : Obligations.ReadTransactionsChangeNothing := by
  intro xs s t as hreads hrun
  induction xs generalizing s as with
  | nil => cases hrun; rfl
  | cons x xs ih =>
    obtain ⟨hread, hrest⟩ := List.forall_mem_cons.1 hreads
    obtain ⟨a, u, bs, hx, hxs, -⟩ := runTransactions_cons_eq_next.1 hrun
    obtain rfl : u = s := Transaction.IsRead.state_eq hread hx
    exact ih _ _ hrest hxs

/-- Settles O54: slot `k` of the record is the RAM byte at the slot's offset. -/
theorem snapshotShowsTheState : Obligations.SnapshotShowsTheState := by
  intro s
  refine ⟨_, rfl, rfl, rfl, rfl, rfl, fun q => ?_, fun k o ho => ?_⟩
  · cases q <;> rfl
  · rw [eq_stackSlot_iff.2 ho]
    exact Vector.getElem_ofFn k.isLt

end Sys2Proof.Proofs
end

section
/-! PROOFS of the family 60_exceptions. First what the obligation needs: the events an instruction appends, in terms of the
kind that R241 assigns. -/

namespace Sys2Proof.Machine

/-- The decode latch does not matter to the kind that R241 assigns. -/
theorem diagnosticOf_loadLatch (i : Instr) (s : State) (l : Latch) : diagnosticOf i (s.loadLatch l) = diagnosticOf i s :=
  rfl

/-- An instruction that completes appends nothing, and a refused one appends the event of its kind (R129, R241). -/
theorem ExecEffect.diagnostics_eq {s t : State} {i : Instr} (h : ExecEffect s i t) :
    t.diagnostics = s.diagnostics ++ ((diagnosticOf i s).map fun k => (⟨k, s.pc, s.bank⟩ : Event)).toList := by
  obtain ⟨hkeep, hnone⟩ | ⟨k, rfl, hkind⟩ := h.completes_or_refused
  · rw [hnone, hkeep]
    exact (List.append_nil _).symm
  · rw [hkind]
    rfl

end Sys2Proof.Machine
end

section
/-! PROOFS of the family 60_exceptions: the obligation, from the facts above. -/

namespace Sys2Proof.Proofs

open Sys2Proof.Machine

/-- Settles O28, by the kind of step: a pause, an out-of-range fetch, and an effect of the fetched instruction. -/
theorem stepAppendsTheFirstConditionsEvent : Obligations.StepAppendsTheFirstConditionsEvent := by
  intro s t hstep
  refine ⟨fun hp => ?_, fun hp hpc => ?_, fun i hp hi => ?_⟩
  · cases (step_of_paused hp).symm.trans hstep
    rfl
  · cases (outOfRangeFetchExecutesNothing s hp hpc).symm.trans hstep
    rfl
  · obtain ⟨l, heff⟩ := step_effect_of_fetched hp hi hstep
    have happend := heff.diagnostics_eq
    rwa [diagnosticOf_loadLatch] at happend

end Sys2Proof.Proofs
end

section
/-! PROOFS of the family 70_reset_and_hazards. First what the obligations share: the state that `reset` leaves, and what an
instruction leaves at `pc` and in the live call-stack slots. -/

namespace Sys2Proof.Machine

/-! ## The state after reset -/

/-- Without images every bank is emptied, so program memory is that of the reset state (R219, R270). -/
theorem loadAllBanks_none_rom (s : State) : (loadAllBanks none s).rom = State.reset.rom := by
  ext1 b hb
  have hempty : State.reset.rom = Vector.replicate 4 [] := rfl
  rw [hempty, Vector.getElem_replicate]
  exact loadAllBanks_bank none s ⟨b, hb⟩

/-- `reset` without images leaves the reset state, whatever the state before. -/
theorem resetCore_none (s : State) : resetCore Config.resetPaused none s = State.reset := by
  simp only [resetCore, loadAllBanks_none_rom]
  rfl

/-- A byte of program memory after `reset` is its image's (R270). -/
theorem romRead_resetCore (p : Bool) (imgs : Option Images) (s : State) (b : Fin 4) (o : Offset) :
    (resetCore p imgs s).romRead b o = imageByte imgs b o :=
  romRead_loadAllBanks imgs s b o

/-- After `reset` and whatever the host then does to `paused`, the next fetch reads the first three bytes of bank 0. -/
theorem fetch_setPaused_resetCore (v p : Bool) (imgs : Option Images) (s : State) :
    fetch (setPaused v (resetCore p imgs s)) = some ⟨imageByte imgs 0 0, imageByte imgs 0 1, imageByte imgs 0 2⟩ := by
  simp only [← romRead_resetCore p imgs s]
  exact fetch_eq_some.2 ⟨0, 1, 2, rfl, rfl, rfl, rfl⟩

/-! ## The alignment of `pc` and of the live return addresses (R278) -/

/-- One slot past an aligned address is aligned: 256 is a multiple of 4. -/
theorem add_four_mod_four {a : Byte} (h : a.toNat % 4 = 0) : (a + 4).toNat % 4 = 0 := by
  have hsum : (a + 4).toNat = (a.toNat + 4) % 256 := BitVec.toNat_add a 4
  omega

/-- The slot that RETURN pops is a live one. -/
theorem topSlot_lt_depth {s : State} (h : 0 < s.depth.val) : topSlot s < s.depth := by
  rw [Fin.lt_def, topSlot_val]
  omega

namespace State.Aligned

variable {s : State}

/-- An aligned counter is at most 0xFC, so it can fetch (R121). -/
theorem fetched_exists (h : s.Aligned) : ∃ i, fetched s = some i := by
  obtain ⟨hpc, -⟩ := h
  have hle : ¬0xFC < s.pc.toNat := by have := s.pc.isLt; omega
  obtain ⟨l, hf⟩ := Option.ne_none_iff_exists'.1 (mt fetch_eq_none.1 hle)
  exact ⟨_, congrArg (Option.map _) hf⟩

/-- JUMP goes to its aligned target, RETURN past a live return address, and every other instruction to the next slot. -/
theorem counterAfter_mod_four {i : Instr} (h : s.Aligned) (hi : Disciplined i s) : (counterAfter i s).toNat % 4 = 0 := by
  obtain ⟨hpc, hslots⟩ := h
  obtain ⟨htarget, -⟩ := hi
  have hnext := add_four_mod_four hpc
  cases i with
  | jump target =>
    simp only [counterAfter]
    split
    · exact htarget target rfl
    · exact hnext
  | ret =>
    simp only [counterAfter]
    split
    · exact add_four_mod_four (hslots _ (topSlot_lt_depth ‹_›))
    · exact hnext
  | _ => exact hnext

end State.Aligned

namespace ExecEffect

variable {s t : State} {i : Instr}

/-- What a live slot holds after an instruction: what it held while live before, the counter of the JUMP that pushed it, or
the value of a RAM_SET into it (R37, R151, R181). -/
theorem live_slot_origin (h : ExecEffect s i t) {k : Fin 15} (hk : k < t.depth) :
    (k < s.depth ∧ t.ramRead (stackSlot k) = s.ramRead (stackSlot k)) ∨ t.ramRead (stackSlot k) = s.pc ∨
    ∃ value, i = .ramSet value ∧ k < s.depth ∧ dataAddress s = some (stackSlot k) ∧ t.ramRead (stackSlot k) = value := by
  cases h with
  | jumpRoom target d hroom hd =>
    have hread := ramRead_ramWrite s (stackSlot s.depth) (stackSlot k) s.pc
    by_cases hslot : k = s.depth
    · exact .inr (.inl (hread.trans (if_pos (stackSlot_inj.2 hslot))))
    · have hlive : k < s.depth := by
        have hkd : k.val < d.val := hk
        have hne : k.val ≠ s.depth.val := mt Fin.ext hslot
        rw [Fin.lt_def]
        omega
      exact .inl ⟨hlive, hread.trans (if_neg (mt stackSlot_inj.1 hslot))⟩
  | retLive hlive =>
    have hbelow : k < topSlot s := hk
    have hread := ramRead_ramWrite s (stackSlot (topSlot s)) (stackSlot k) 0x00
    exact .inl ⟨hbelow.trans (topSlot_lt_depth (Nat.pos_of_ne_zero hlive)),
      hread.trans (if_neg (mt stackSlot_inj.1 hbelow.ne))⟩
  | ramSetInside v o ho =>
    have hread := ramRead_ramWrite s o (stackSlot k) v
    by_cases hslot : stackSlot k = o
    · exact .inr (.inr ⟨v, rfl, hk, hslot ▸ ho, hread.trans (if_pos hslot)⟩)
    · exact .inl ⟨hk, hread.trans (if_neg hslot)⟩
  | _ => exact .inl ⟨hk, rfl⟩

/-- A disciplined instruction keeps the alignment (R278). -/
theorem aligned (h : ExecEffect s i t) (hs : s.Aligned) (hi : Disciplined i s) : t.Aligned := by
  refine ⟨h.pc_eq ▸ hs.counterAfter_mod_four hi, fun k hk => ?_⟩
  obtain ⟨hpc, hslots⟩ := hs
  obtain ⟨-, hstore⟩ := hi
  obtain ⟨hlive, hkept⟩ | hpushed | ⟨value, hset, hlive, haddr, hstored⟩ := h.live_slot_origin hk
  · exact hkept ▸ hslots k hlive
  · exact hpushed ▸ hpc
  · exact hstored ▸ hstore value hset k hlive haddr

end ExecEffect

end Sys2Proof.Machine
end

section
/-! PROOFS of the family 70_reset_and_hazards: the obligations, each from the facts above. -/

namespace Sys2Proof.Proofs

open Sys2Proof.Machine

/-- Settles O37: a paused step keeps the state, and a Running one has an effect of the fetched instruction, which observes
no decode latch. -/
theorem disciplinedStepKeepsAlignment : Obligations.DisciplinedStepKeepsAlignment := by
  intro s hs
  obtain ⟨i, hi⟩ := hs.fetched_exists
  refine ⟨i, hi, fun t hstep hdisc => ?_⟩
  cases hp : s.paused with
  | true =>
    cases (step_of_paused hp).symm.trans hstep
    exact hs
  | false =>
    obtain ⟨l, heff⟩ := step_effect_of_fetched hp hi hstep
    exact heff.aligned hs hdisc

/-- Settles O44: the banks hold the images that were loaded, and `reset` sets every other item itself. -/
theorem resetSetsEveryItem : Obligations.ResetSetsEveryItem := by
  intro imgs s
  refine ⟨_, rfl, fun r => ?_, rfl, rfl, rfl, rfl, fun _ => rfl, fun _ => rfl, romRead_resetCore _ imgs s, rfl, rfl, rfl,
    rfl, ?_⟩
  · cases r <;> rfl
  · rintro rfl
    exact resetCore_none s

/-- Settles O45: the first fetch reads the images' first three bytes, and an instruction does not observe the decode latch
that the fetch loads. -/
theorem firstStepAfterResetRunsBankZeroOffsetZero : Obligations.FirstStepAfterResetRunsBankZeroOffsetZero := by
  intro imgs s
  let t := setPaused false (resetCore Config.resetPaused imgs s)
  have hrunning : t.paused = false := rfl
  refine ⟨t, _, rfl, ?_⟩
  exact (step_of_fetch t hrunning (fetch_setPaused_resetCore false _ imgs s)).trans (latchIsNotObservable _ t _)

/-- Settles O40: the reset state is itself what `reset` without images leaves. -/
theorem resetMeetsTheInvariant : Obligations.ResetMeetsTheInvariant :=
  ⟨resetCore_none State.reset ▸ resetCore_inv _ none State.reset, resetCore_inv⟩

end Sys2Proof.Proofs
end
